-- ==== Sys2Proof/Word.lean ====
section
/-! DEFINITION. The words of the block: 32-bit registers and command words, 256-bit operands, window offsets, bytes,
and operand-register numbers (spec/10_state.md R20, R24, R26, R29; spec/20_memory.md R50, R55). -/

namespace Sys2Proof

/-- A 32-bit register or command word (R24, R26, R29, R70). -/
abbrev Word := BitVec 32

/-- One byte of the register window or of a message (R55, R56). -/
abbrev Byte := BitVec 8

/-- The content of one operand register: a 256-bit unsigned value (R20). -/
abbrev Operand := BitVec 256

/-- A byte offset into the 4096-byte register window, 0x000..0xFFF (R50). -/
abbrev Offset := BitVec 12

/-- The number of an operand register, x0..x15 (R20, R71). -/
abbrev Reg := Fin 16

/-- The number of a 32-bit digit of an operand register, 0..7 (R10, R20). -/
abbrev DigitIx := Fin 8

end Sys2Proof
end

