-- ==== Sys2Proof/Config.lean ====
section
/-! DEFINITION. The fixed parameters of the block (spec/00_scope.md R7), its identification constant (spec/10_state.md R36),
the one open platform parameter WINDOW_BASE (spec/20_memory.md R54), and the one free value of the model. -/

namespace Sys2Proof.Config

/-- DIGIT_BITS of R7. -/
def digitBits : Nat := 32

/-- NDIGITS of R7: the digits of a 256-bit integer. -/
def nDigits : Nat := 8

/-- NDIGITS_WIDE of R7: the digits of a 512-bit product. -/
def nDigitsWide : Nat := 16

/-- The prime P of R7: 2^255 - 19. A constant of the engine, not a register (R34). -/
def P : Nat := 2 ^ 255 - 19

/-- MSG_BYTES of R7: the length of a Curve25519 message. -/
def msgBytes : Nat := 32

/-- LADDER_BITS of R7: the ladder reads scalar bits 253..0. -/
def ladderBits : Nat := 254

/-- A24 of R7 and R171: (486662 - 2) / 4. -/
def a24 : Nat := 121665

/-- INV_EXP of R7: the exponent P - 2 of the field inverse. -/
def invExp : Nat := P - 2

/-- NREGS of R7. -/
def nRegs : Nat := 16

/-- WINDOW_BYTES of R7. -/
def windowBytes : Nat := 4096

/-- CORE_ID of R7 and R36. -/
def coreId : Word := 0x25510007#32

/-- WINDOW_BASE of R54: a platform parameter left open. No meaning reads it; the bus functions of Machine/Platform.lean take a
base as an argument (log entry 4, DESIGN CHOICE, safe). -/
opaque windowBase : Nat

/-- FREE VALUE. What the host's bus returns for a CMD write that a reset cuts short (R232, spec/93_implementation_defined.md
I3: "any value"), one per draw (log entry 5, DESIGN CHOICE, safe). -/
opaque cutReply : Nat → Option Word

end Sys2Proof.Config
end

