-- ==== Sys2Proof/Syntax.lean ====
section
/-! DEFINITION. The twelve commands of the block, one constructor per row of spec/opcode_table.json (spec/30_encoding.md R73,
R76). A field that R73 marks `0` is no argument. -/

namespace Sys2Proof

/-- A command with its operand registers, destination first (R73, R80). -/
inductive Instr where
  /-- mpi_add (R101) -/
  | mpiAdd (rd ra rb : Reg)
  /-- mpi_sub_borrow (R104) -/
  | mpiSubBorrow (rd ra rb : Reg)
  /-- mpi_cmp (R107) -/
  | mpiCmp (ra rb : Reg)
  /-- mpi_widening_mult (R110); rd is even (R74) -/
  | mpiWideningMult (rd ra rb : Reg)
  /-- f25519_reduce (R133) -/
  | f25519Reduce (rd ra : Reg)
  /-- f25519_add (R136) -/
  | f25519Add (rd ra rb : Reg)
  /-- f25519_sub (R139) -/
  | f25519Sub (rd ra rb : Reg)
  /-- f25519_mult (R142) -/
  | f25519Mult (rd ra rb : Reg)
  /-- f25519_inv (R146) -/
  | f25519Inv (rd ra : Reg)
  /-- f25519_serialize (R150) -/
  | f25519Serialize (rd ra : Reg)
  /-- f25519_deserialize (R153) -/
  | f25519Deserialize (rd ra : Reg)
  /-- curve25519_ladder (R180): ra the scalar, rb the base point -/
  | curve25519Ladder (rd ra rb : Reg)
deriving DecidableEq, Repr

end Sys2Proof
end

