-- ==== Sys2Proof/Machine/State.lean ====
section
/-! DEFINITION. The state of the block (spec/10_state.md R20 to R38; spec/00_scope.md R16), the host accesses and reset
events that reach it from outside, and the reasons a step can stop. -/

namespace Sys2Proof.Machine

/-- A host access to the register window (spec/20_memory.md R53, R58). `width` is in bytes; only width 4 at a multiple of 4 has
a meaning, and the data of any other write is never looked at (log entry 11, DESIGN CHOICE, safe). -/
inductive HostAccess where
  /-- MemRead(offset, width) -/
  | read (width : Nat) (offset : Offset)
  /-- MemWrite(offset, width, data) -/
  | write (width : Nat) (offset : Offset) (data : Word)
deriving DecidableEq, Repr

/-- What can reach the block from outside (R15, spec/70_reset_and_hazards.md R230 to R232). -/
inductive HostEvent where
  /-- a host access, performed to its end -/
  | access (a : HostAccess)
  /-- the reset input, asserted between accesses (R230) -/
  | reset
  /-- a host write of the word to CMD whose command the reset input abandons (R232) -/
  | cmdCutByReset (w : Word)
deriving DecidableEq, Repr

/-- The state: the four kinds of registers of R16, and three fields of the model's own that hold what lies outside the block. -/
structure State where
  /-- the operand registers x0..x15 (R20) -/
  x : Vector Operand 16
  /-- the result register RES (R24) -/
  res : Word
  /-- the status register STATUS: ERR in bits 3:0, SERR in bit 8 (R26) -/
  status : Word
  /-- the last word written to CMD (R30) -/
  cmdLast : Word
  /-- MODEL'S OWN: the events the block will receive, oldest first (log entry 1, DESIGN CHOICE, safe) -/
  pending : List HostEvent
  /-- MODEL'S OWN: the word the block last drove in answer to a read; none after any other event (log entry 3, DESIGN CHOICE, safe) -/
  reply : Option Word
  /-- MODEL'S OWN: how many free values were drawn (log entry 5, DESIGN CHOICE, safe) -/
  draws : Nat
deriving DecidableEq, Repr

/-- The reasons the machine could stop with a fault. There is none: "A command never faults the model" (spec/00_scope.md R17),
and the block has no traps (spec/60_exceptions.md R206). -/
inductive Fault
deriving DecidableEq, Repr

/-- The reasons a step has no meaning. -/
inductive Refusal where
  /-- An instruction without a meaning yet, raised by an arm of exec only. Safe. No arm raises it. -/
  | notModelled (mnemonic : String)
  /-- Raised by a host access whose width is not 4 bytes: its effect is not specified and a model refuses it (R53, I1). Safe:
  the machine stops where a chip may go on. -/
  | accessWidth (width : Nat)
  /-- Raised by a 4-byte host access at an offset that is not a multiple of 4: not specified (R53, I1). Safe, as accessWidth. -/
  | accessMisaligned (offset : Offset)
deriving DecidableEq, Repr

/-- What a command or a step answers. -/
abbrev Result := Host.Outcome State Fault Refusal

/-- The block right after reset (R37, R230), with no event waiting (log entries 1, 3, 5). -/
def State.reset : State where
  x := Vector.replicate 16 0#256
  res := 0#32
  status := 0#32
  cmdLast := 0#32
  pending := []
  reply := none
  draws := 0

end Sys2Proof.Machine
end

