-- ==== Sys2Proof/Machine/Flags.lean ====
section
/-! DEFINITION. The condition values: what mpi_add, mpi_sub_borrow and mpi_cmp put into RES (spec/10_state.md R24), the error
codes (spec/60_exceptions.md R200), and every update and reading of STATUS (R26 to R28). -/

namespace Sys2Proof.Machine

/-- RES of mpi_add: zext_32(s // 2^256) for the exact sum s (R101). -/
def carryWord (sum : Nat) : Word := BitVec.ofNat 32 (sum / 2 ^ 256)

/-- RES of mpi_sub_borrow: all ones on a borrow, else 0 (R104). -/
def borrowWord (a b : Nat) : Word := if a < b then 0xFFFFFFFF#32 else 0x00000000#32

/-- RES of mpi_cmp: 1, 0 or -1 as 32-bit two's complement (R107). -/
def compareWord (a b : Nat) : Word :=
  if a > b then 0x00000001#32 else if a = b then 0x00000000#32 else 0xFFFFFFFF#32

/-- The code a command ends with (R200). Codes 3..15 are never produced. -/
inductive ErrorCode where
  /-- OK: the command completed and wrote all its results -/
  | ok
  /-- E_ILLEGAL: the command word is illegal (R77) -/
  | illegal
  /-- E_RANGE: a field operand, message or base point is not below P -/
  | range
deriving DecidableEq, Repr

/-- The number of a code (R200). -/
def ErrorCode.bits : ErrorCode → BitVec 4
  | .ok => 0#4
  | .illegal => 1#4
  | .range => 2#4

/-- STATUS.ERR = STATUS[3:0] (R26). -/
def errField (status : Word) : BitVec 4 := status.extractLsb' 0 4

/-- STATUS.SERR = STATUS[8] (R26). -/
def serrField (status : Word) : Bool := status.getLsbD 8

/-- STATUS at the end of a command with code c: ERR <- c, and SERR <- 1 if c is not 0 (R27, R28). The reserved bits stay
(log entry 7, DEDUCED, safe). -/
def statusAfter (c : ErrorCode) (status : Word) : Word :=
  (status &&& 0xFFFFFFF0#32) ||| (c.bits.setWidth 32 ||| (if c = .ok then 0#32 else 0x00000100#32))

/-- STATUS after a host write of v to it: bit 8 of v clears SERR, no other bit has an effect (R28). -/
def statusWrite (v status : Word) : Word :=
  if v.getLsbD 8 then status &&& 0xFFFFFEFF#32 else status

/-- What a host read of STATUS answers: ERR and SERR, the reserved bits as 0 (R26). -/
def statusRead (status : Word) : Word := status &&& 0x0000010F#32

end Sys2Proof.Machine
end

