-- ==== Sys2Proof/Machine/Ops.lean ====
section
/-! DEFINITION. The named operations over the registers: reading and writing an operand register whole, as a pair, and digit by
digit (spec/10_state.md R20, R22; spec/20_memory.md R59); ending a command, and ending it with an error, which is the block's
one exception (spec/60_exceptions.md R202, R206); and reset (spec/70_reset_and_hazards.md R230). -/

namespace Sys2Proof.Machine

/-- digit(v, j) = v[32j+31:32j] (spec/00_scope.md R10). -/
def digit (v : Operand) (j : DigitIx) : Word := v.extractLsb' (32 * j.val) 32

/-- v with digit j set to w and every other digit unchanged (R59). -/
def setDigit (v : Operand) (j : DigitIx) (w : Word) : Operand :=
  (v &&& ~~~((0xFFFFFFFF#256) <<< (32 * j.val))) ||| ((w.setWidth 256) <<< (32 * j.val))

/-- Byte k of a 32-bit word: bits [8k+7:8k] (R55). -/
def wordByte (w : Word) (k : Nat) : Byte := w.extractLsb' (8 * k) 8

/-- Byte b of an operand: bits [8b+7:8b] (R55). -/
def operandByte (v : Operand) (b : Nat) : Byte := v.extractLsb' (8 * b) 8

/-- The Curve25519 message of an operand: its 32 bytes, byte 0 first (R56). -/
def messageOf (v : Operand) : List Byte := (List.range 32).map (operandByte v)

/-- The integer a message stands for: the sum of m[b] * 256^b (R56). -/
def messageValue : List Byte → Nat
  | [] => 0
  | m :: rest => m.toNat + 256 * messageValue rest

/-- x[r] (spec/00_scope.md R11). -/
def State.getX (s : State) (r : Reg) : Operand := s.x[r]

/-- x[r] as an unsigned integer (R9, R11). -/
def State.val (s : State) (r : Reg) : Nat := (s.getX r).toNat

/-- x[r] <- v (R11). -/
def State.setX (s : State) (r : Reg) (v : Operand) : State := { s with x := s.x.set r.val v r.isLt }

/-- x[r] <- n for an integer n below 2^256 (R11); every caller's n is. -/
def State.setNat (s : State) (r : Reg) (n : Nat) : State := s.setX r (BitVec.ofNat 256 n)

/-- The upper register of the pair whose lower register is rd (R22). -/
def pairHigh (rd : Reg) : Reg := rd + 1

/-- A 512-bit value into the pair (x[rd], x[rd+1]): the low half, then the high half (R22, R110). -/
def State.setPair (s : State) (rd : Reg) (p : Nat) : State :=
  (s.setNat rd (p % 2 ^ 256)).setNat (pairHigh rd) (p / 2 ^ 256)

/-- RES <- w (R24). -/
def State.setRes (s : State) (w : Word) : State := { s with res := w }

/-- The end of a command with code c: STATUS takes the code (R27, R28). -/
def State.endCommand (s : State) (c : ErrorCode) : State := { s with status := statusAfter c s.status }

/-- The end of a command that succeeded: code 0 (R27). -/
def State.complete (s : State) : State := s.endCommand .ok

/-- `raise c` of R11: the block's one exception. The command is aborted, no operand register and no RES is written, STATUS
records the code; nothing is saved and no control is transferred, so there is no return from it (R202, R206, R207). -/
def State.raise (s : State) (c : ErrorCode) : State := s.endCommand c

/-- The reset input: every piece of the block's state takes its reset value (R37, R230). What lies outside the block, the events
still to come and the count of free values, is not reset (log entry 6, DESIGN CHOICE, safe). -/
def State.applyReset (s : State) : State :=
  { State.reset with pending := s.pending, draws := s.draws }

end Sys2Proof.Machine
end

