-- ==== Sys2Proof/Machine/Operands.lean ====
section
/-! DEFINITION. The operand forms of the commands (spec/30_encoding.md R71, R73): every operand is an operand register, read
before anything is written (spec/00_scope.md R12). For the field commands the operand check (spec/41_f25519.md R131) is part of
the form: a checked source that is not below P ends the command with E_RANGE. -/

namespace Sys2Proof.Machine

/-- FieldCheck of R131 as a test: the value is a field element (R23). -/
def isField (v : Nat) : Bool := decide (v < Config.P)

/-- A command with one source and no operand check, writing x[rd] (f25519_reduce). -/
def unaryOp (rd ra : Reg) (f : Nat → Nat) (s : State) : Result :=
  .next (s.setNat rd (f (s.val ra))).complete

/-- A field command with one checked source, writing x[rd] (R131). -/
def fieldUnary (rd ra : Reg) (f : Nat → Nat) (s : State) : Result :=
  if isField (s.val ra) then .next (s.setNat rd (f (s.val ra))).complete
  else .next (s.raise .range)

/-- A field command with two checked sources, writing x[rd] (R131). -/
def fieldBinary (rd ra rb : Reg) (f : Nat → Nat → Nat) (s : State) : Result :=
  if isField (s.val ra) && isField (s.val rb) then .next (s.setNat rd (f (s.val ra) (s.val rb))).complete
  else .next (s.raise .range)

/-- A command with a first source that is never checked and a second that is, writing x[rd] (curve25519_ladder, R180). -/
def scalarFieldOp (rd ra rb : Reg) (f : Operand → Nat → Nat) (s : State) : Result :=
  if isField (s.val rb) then .next (s.setNat rd (f (s.getX ra) (s.val rb))).complete
  else .next (s.raise .range)

end Sys2Proof.Machine
end

