-- ==== Sys2Proof/Machine/Field.lean ====
section
/-! DEFINITION. Arithmetic modulo P on unbounded natural numbers: the field functions of spec/00_scope.md R13, the internal
functions of spec/41_f25519.md R160 and R161, and the inversion chain of R147. -/

namespace Sys2Proof.Machine

open Sys2Proof.Config (P)

/-- fadd(u, v) = (u + v) mod P (R13). -/
def fadd (u v : Nat) : Nat := (u + v) % P

/-- fsub(u, v) = (u - v) mod P, the non-negative remainder (R9, R13), without leaving the natural numbers. -/
def fsub (u v : Nat) : Nat := (u + (P - v % P)) % P

/-- fmul(u, v) = (u * v) mod P (R13). -/
def fmul (u v : Nat) : Nat := u * v % P

/-- fsq(u) = (u * u) mod P (R13, R160). -/
def fsq (u : Nat) : Nat := fmul u u

/-- fpow(u, e) = u^e mod P (R13). The mathematical function; the machine computes the inverse by the chain below. -/
def fpow (u e : Nat) : Nat := u ^ e % P

/-- mul_small(a, k) = (a * k) mod P (R161). -/
def mulSmall (a k : Nat) : Nat := a * k % P

/-- fsq applied n times (R147). -/
def fsqTimes : Nat → Nat → Nat
  | 0, t => t
  | n + 1, t => fsqTimes n (fsq t)

/-- n repetitions of five squarings and one multiplication by m (R147). -/
def fiveSquaresMul (m : Nat) : Nat → Nat → Nat
  | 0, t => t
  | n + 1, t => fiveSquaresMul m n (fmul (fsqTimes 5 t) m)

/-- The addition chain of R147 for z^(P - 2) mod P: z^11 and z^31, 49 repetitions with z^31, then five squarings and z^11. -/
def invChain (z : Nat) : Nat :=
  let t2 := fsq z
  let t4 := fsq t2
  let t8 := fsq t4
  let t9 := fmul t8 z
  let t11 := fmul t9 t2
  let t22 := fsq t11
  let t31 := fmul t22 t9
  fmul (fsqTimes 5 (fiveSquaresMul t31 49 t31)) t11

end Sys2Proof.Machine
end

