-- ==== Sys2Proof/Machine/Curve25519.lean ====
section
/-! DEFINITION. The Curve25519 command (spec/42_curve25519.md R170 to R183): the Montgomery-ladder step, the ladder, and the
meaning of curve25519_ladder. -/

namespace Sys2Proof.Machine

/-- An XZ-projective point (X : Z); Z = 0 is the point at infinity (R170). -/
structure Point where
  X : Nat
  Z : Nat
deriving DecidableEq, Repr

/-- The two-slot table pts = [Q0, Q1] (R177). -/
structure Points where
  q0 : Point
  q1 : Point
deriving DecidableEq, Repr

/-- pts[b] (R177, R179). -/
def Points.slot (p : Points) : Bool → Point
  | false => p.q0
  | true => p.q1

/-- pts with pts[b] = td and pts[b xor 1] = ta (R179). -/
def Points.ofSlots (b : Bool) (td ta : Point) : Points :=
  match b with
  | false => ⟨td, ta⟩
  | true => ⟨ta, td⟩

/-- The new double target of MDA (R171): 2 * Td. -/
def mdaDouble (td : Point) : Point :=
  let A := fadd td.X td.Z
  let AA := fsq A
  let B := fsub td.X td.Z
  let BB := fsq B
  let E := fsub AA BB
  ⟨fmul AA BB, fmul E (fadd AA (mulSmall E Config.a24))⟩

/-- The new add target of MDA (R171): Ta + Td, with the fixed difference u. -/
def mdaAdd (ta td : Point) (u : Nat) : Point :=
  let A := fadd td.X td.Z
  let B := fsub td.X td.Z
  let C := fadd ta.X ta.Z
  let D := fsub ta.X ta.Z
  let DA := fmul D A
  let CB := fmul C B
  ⟨fsq (fadd DA CB), fmul u (fsq (fsub DA CB))⟩

/-- One ladder step for the bit b: MDA(Ta = pts[b xor 1], Td = pts[b], u), every input read first (R171, R179). -/
def ladderStep (u : Nat) (b : Bool) (p : Points) : Points :=
  Points.ofSlots b (mdaDouble (p.slot b)) (mdaAdd (p.slot (!b)) (p.slot b) u)

/-- The initial points: Q0 = (1 : 0), Q1 = (u : 1) (R177). -/
def ladderInit (u : Nat) : Points := ⟨⟨1, 0⟩, ⟨u, 1⟩⟩

/-- The bit loop for the scalar bits n-1 down to 0 (R179). -/
def ladderLoop (a : Operand) (u : Nat) : Nat → Points → Points
  | 0, p => p
  | i + 1, p => ladderLoop a u i (ladderStep u (a.getLsbD i) p)

/-- The points after the priming step for bit 254 of k, which is 1, and the loop over bits 253..0 (R178, R179, R180). -/
def ladderPoints (a : Operand) (u : Nat) : Points :=
  ladderLoop a u Config.ladderBits (ladderStep u true (ladderInit u))

/-- The result of curve25519_ladder: X0 * Z0^(P-2) mod P for (X0 : Z0) = pts[0] (R180). -/
def ladder (a : Operand) (u : Nat) : Nat :=
  let q := (ladderPoints a u).q0
  fmul q.X (invChain q.Z)

/-- The effective scalar k = 2^254 + (a mod 2^254) (R175). -/
def effectiveScalar (a : Operand) : Nat := 2 ^ 254 + a.toNat % 2 ^ 254

/-- curve25519_ladder: x[RD] <- the ladder of the scalar x[RA], never checked, and the base point x[RB], which must be
below P (R180). -/
def execCurve25519Ladder (rd ra rb : Reg) (s : State) : Result := scalarFieldOp rd ra rb ladder s

end Sys2Proof.Machine
end

