-- ==== Sys2Proof/Machine/F25519.lean ====
section
/-! DEFINITION. The meanings of the F25519 commands (spec/41_f25519.md R130 to R154). None of them writes RES. -/

namespace Sys2Proof.Machine

/-- f25519_reduce: x[RD] <- v mod P for any 256-bit v, never E_RANGE (R133). -/
def execF25519Reduce (rd ra : Reg) (s : State) : Result := unaryOp rd ra (fun v => v % Config.P) s

/-- f25519_add: x[RD] <- (a + b) mod P (R136). -/
def execF25519Add (rd ra rb : Reg) (s : State) : Result := fieldBinary rd ra rb fadd s

/-- f25519_sub: x[RD] <- (a - b) mod P (R139). -/
def execF25519Sub (rd ra rb : Reg) (s : State) : Result := fieldBinary rd ra rb fsub s

/-- f25519_mult: x[RD] <- (a * b) mod P (R142); with both sources the same register it is squaring (R160). -/
def execF25519Mult (rd ra rb : Reg) (s : State) : Result := fieldBinary rd ra rb fmul s

/-- f25519_inv: x[RD] <- z^(P-2) mod P (R146), by the chain of R147 (log entry 9, DEDUCED, safe). -/
def execF25519Inv (rd ra : Reg) (s : State) : Result := fieldUnary rd ra invChain s

/-- f25519_serialize: the field element's message, whose bits in the little-endian window are the element's own (R150). -/
def execF25519Serialize (rd ra : Reg) (s : State) : Result := fieldUnary rd ra (fun e => e) s

/-- f25519_deserialize: the message's value when it is below P, else E_RANGE, never reduced (R153). -/
def execF25519Deserialize (rd ra : Reg) (s : State) : Result := fieldUnary rd ra (fun v => v) s

end Sys2Proof.Machine
end

