-- ==== Sys2Proof/WellFormed.lean ====
section
/-! DEFINITION. Which commands have a legal command word (spec/30_encoding.md R74, R77): the register numbers are bounded by
their type, so the one check left is that the destination of mpi_widening_mult is the lower half of a pair. -/

namespace Sys2Proof

/-- R74: mpi_widening_mult writes an even/odd pair, so its RD must be even. -/
def evenPair (rd : Reg) : Bool := rd.val % 2 == 0

/-- The command has a legal command word (R74, R77). -/
def Instr.wellFormed : Instr → Bool
  | .mpiAdd _ _ _ => true
  | .mpiSubBorrow _ _ _ => true
  | .mpiCmp _ _ => true
  | .mpiWideningMult rd _ _ => evenPair rd
  | .f25519Reduce _ _ => true
  | .f25519Add _ _ _ => true
  | .f25519Sub _ _ _ => true
  | .f25519Mult _ _ _ => true
  | .f25519Inv _ _ => true
  | .f25519Serialize _ _ => true
  | .f25519Deserialize _ _ => true
  | .curve25519Ladder _ _ _ => true

end Sys2Proof
end

