-- ==== Sys2Proof/Decode.lean ====
section
/-! DEFINITION. The decoder, total over all 32-bit words, and the encoder, both from spec/30_encoding.md: the field layout
(R70, R71), the operand usage (R73, R74), the opcode map (R76) and the legality checks (R77, R78); the opcode table as data;
and the assembler's operand syntax (R80, R81). -/

namespace Sys2Proof

/-- Why a command word is illegal: the four grounds of R77. All of them end the command with E_ILLEGAL. -/
inductive Illegal where
  /-- R77.1: OP is not one of the twelve values of R76. -/
  | unknownOp
  /-- R77.2: RSV is not 0. -/
  | reservedBits
  /-- R77.3: a register field that R73 marks `0` is not 0. -/
  | unusedField
  /-- R77.4: mpi_widening_mult with an odd RD. -/
  | oddPair
deriving DecidableEq, Repr

/-- OP = w[7:0] (R71). -/
def opField (w : Word) : BitVec 8 := w.extractLsb' 0 8

/-- RD = w[11:8] (R71). -/
def rdField (w : Word) : Reg := (w.extractLsb' 8 4).toFin

/-- RA = w[15:12] (R71). -/
def raField (w : Word) : Reg := (w.extractLsb' 12 4).toFin

/-- RB = w[19:16] (R71). -/
def rbField (w : Word) : Reg := (w.extractLsb' 16 4).toFin

/-- RSV = w[31:20] (R71). -/
def rsvField (w : Word) : BitVec 12 := w.extractLsb' 20 12

/-- A command that uses RD and RA only: its RB must be 0 (R73, R77.3). -/
def decodeDA (w : Word) (mk : Reg → Reg → Instr) : Except Illegal Instr :=
  if rbField w = 0 then .ok (mk (rdField w) (raField w)) else .error .unusedField

/-- A command that uses all three register fields (R73). -/
def decodeDAB (w : Word) (mk : Reg → Reg → Reg → Instr) : Except Illegal Instr :=
  .ok (mk (rdField w) (raField w) (rbField w))

/-- The decoder of R78: every 32-bit word is exactly one command or illegal on one of the grounds of R77. Where a word is
illegal on several grounds the one named first in R78's order is answered; the code is E_ILLEGAL in every case (log entry 14, DEDUCED, safe). -/
def decode (w : Word) : Except Illegal Instr :=
  if rsvField w ≠ 0#12 then .error .reservedBits
  else if opField w = 0x01#8 then decodeDAB w .mpiAdd
  else if opField w = 0x02#8 then decodeDAB w .mpiSubBorrow
  else if opField w = 0x03#8 then
    (if rdField w = 0 then .ok (.mpiCmp (raField w) (rbField w)) else .error .unusedField)
  else if opField w = 0x04#8 then
    (if evenPair (rdField w) then decodeDAB w .mpiWideningMult else .error .oddPair)
  else if opField w = 0x10#8 then decodeDA w .f25519Reduce
  else if opField w = 0x11#8 then decodeDAB w .f25519Add
  else if opField w = 0x12#8 then decodeDAB w .f25519Sub
  else if opField w = 0x13#8 then decodeDAB w .f25519Mult
  else if opField w = 0x14#8 then decodeDA w .f25519Inv
  else if opField w = 0x15#8 then decodeDA w .f25519Serialize
  else if opField w = 0x16#8 then decodeDA w .f25519Deserialize
  else if opField w = 0x20#8 then decodeDAB w .curve25519Ladder
  else .error .unknownOp

/-- Four bits that name an operand register (R71). -/
def regBits (r : Reg) : BitVec 4 := BitVec.ofFin r

/-- A command word laid out as R70 draws it, bit 31 first: RSV = 0, RB, RA, RD, OP. -/
def commandWord (op : BitVec 8) (rd ra rb : Reg) : Word :=
  0#12 ++ regBits rb ++ regBits ra ++ regBits rd ++ op

/-- The encoder of R80: OP from the opcode map of R76, each used register in its field, 0 in the unused ones. -/
def encode : Instr → Word
  | .mpiAdd rd ra rb => commandWord 0x01#8 rd ra rb
  | .mpiSubBorrow rd ra rb => commandWord 0x02#8 rd ra rb
  | .mpiCmp ra rb => commandWord 0x03#8 0 ra rb
  | .mpiWideningMult rd ra rb => commandWord 0x04#8 rd ra rb
  | .f25519Reduce rd ra => commandWord 0x10#8 rd ra 0
  | .f25519Add rd ra rb => commandWord 0x11#8 rd ra rb
  | .f25519Sub rd ra rb => commandWord 0x12#8 rd ra rb
  | .f25519Mult rd ra rb => commandWord 0x13#8 rd ra rb
  | .f25519Inv rd ra => commandWord 0x14#8 rd ra 0
  | .f25519Serialize rd ra => commandWord 0x15#8 rd ra 0
  | .f25519Deserialize rd ra => commandWord 0x16#8 rd ra 0
  | .curve25519Ladder rd ra rb => commandWord 0x20#8 rd ra rb

/-- The decoder over the opcode table's numbering of bits: bit 0 is the least significant bit of the one command word (R70, R72),
and every bit above nbits is 0. A number that does not fit one 32-bit word is no command word. -/
def decodeTableWord (nbits w : Nat) : Option Instr :=
  if w % 2 ^ nbits < 2 ^ 32 then (decode (BitVec.ofNat 32 (w % 2 ^ nbits))).toOption else none

/-- One row of spec/opcode_table.json: a word is a command of this row when its bits under the mask equal the match. -/
structure OpcodeRow where
  mnemonic : String
  matchBits : Word
  maskBits : Word
deriving DecidableEq, Repr

/-- spec/opcode_table.json, row for row (R76; the masks and matches of R101 to R180). -/
def opcodeTable : List OpcodeRow :=
  [ ⟨"mpi_add", 0x00000001#32, 0xFFF000FF#32⟩,
    ⟨"mpi_sub_borrow", 0x00000002#32, 0xFFF000FF#32⟩,
    ⟨"mpi_cmp", 0x00000003#32, 0xFFF00FFF#32⟩,
    ⟨"mpi_widening_mult", 0x00000004#32, 0xFFF001FF#32⟩,
    ⟨"f25519_reduce", 0x00000010#32, 0xFFFF00FF#32⟩,
    ⟨"f25519_add", 0x00000011#32, 0xFFF000FF#32⟩,
    ⟨"f25519_sub", 0x00000012#32, 0xFFF000FF#32⟩,
    ⟨"f25519_mult", 0x00000013#32, 0xFFF000FF#32⟩,
    ⟨"f25519_inv", 0x00000014#32, 0xFFFF00FF#32⟩,
    ⟨"f25519_serialize", 0x00000015#32, 0xFFFF00FF#32⟩,
    ⟨"f25519_deserialize", 0x00000016#32, 0xFFFF00FF#32⟩,
    ⟨"curve25519_ladder", 0x00000020#32, 0xFFF000FF#32⟩ ]

/-- The word is a command word of the row. -/
def OpcodeRow.fits (r : OpcodeRow) (w : Word) : Bool := w &&& r.maskBits == r.matchBits

/-- The mnemonic of a command (R76). -/
def Instr.mnemonic : Instr → String
  | .mpiAdd _ _ _ => "mpi_add"
  | .mpiSubBorrow _ _ _ => "mpi_sub_borrow"
  | .mpiCmp _ _ => "mpi_cmp"
  | .mpiWideningMult _ _ _ => "mpi_widening_mult"
  | .f25519Reduce _ _ => "f25519_reduce"
  | .f25519Add _ _ _ => "f25519_add"
  | .f25519Sub _ _ _ => "f25519_sub"
  | .f25519Mult _ _ _ => "f25519_mult"
  | .f25519Inv _ _ => "f25519_inv"
  | .f25519Serialize _ _ => "f25519_serialize"
  | .f25519Deserialize _ _ => "f25519_deserialize"
  | .curve25519Ladder _ _ _ => "curve25519_ladder"

/-- The operand registers an assembler line of the command lists, destination first, unused fields omitted (R80). -/
def Instr.operands : Instr → List Reg
  | .mpiAdd rd ra rb => [rd, ra, rb]
  | .mpiSubBorrow rd ra rb => [rd, ra, rb]
  | .mpiCmp ra rb => [ra, rb]
  | .mpiWideningMult rd ra rb => [rd, ra, rb]
  | .f25519Reduce rd ra => [rd, ra]
  | .f25519Add rd ra rb => [rd, ra, rb]
  | .f25519Sub rd ra rb => [rd, ra, rb]
  | .f25519Mult rd ra rb => [rd, ra, rb]
  | .f25519Inv rd ra => [rd, ra]
  | .f25519Serialize rd ra => [rd, ra]
  | .f25519Deserialize rd ra => [rd, ra]
  | .curve25519Ladder rd ra rb => [rd, ra, rb]

/-- A command of three operands with the mnemonic of R80. -/
def assemble3 (name : String) (rd ra rb : Reg) : Option Instr :=
  if name = "mpi_add" then some (.mpiAdd rd ra rb)
  else if name = "mpi_sub_borrow" then some (.mpiSubBorrow rd ra rb)
  else if name = "mpi_widening_mult" then (if evenPair rd then some (.mpiWideningMult rd ra rb) else none)
  else if name = "f25519_add" then some (.f25519Add rd ra rb)
  else if name = "f25519_sub" then some (.f25519Sub rd ra rb)
  else if name = "f25519_mult" then some (.f25519Mult rd ra rb)
  else if name = "curve25519_ladder" then some (.curve25519Ladder rd ra rb)
  else none

/-- A command of two operands with the mnemonic of R80; f25519_square is the one pseudo-instruction (R81). -/
def assemble2 (name : String) (r1 r2 : Reg) : Option Instr :=
  if name = "mpi_cmp" then some (.mpiCmp r1 r2)
  else if name = "f25519_reduce" then some (.f25519Reduce r1 r2)
  else if name = "f25519_inv" then some (.f25519Inv r1 r2)
  else if name = "f25519_serialize" then some (.f25519Serialize r1 r2)
  else if name = "f25519_deserialize" then some (.f25519Deserialize r1 r2)
  else if name = "f25519_square" then some (.f25519Mult r1 r2 r2)
  else none

/-- The assembler of R80 and R81, from a line's mnemonic and its list of operand registers (log entry 12: the reading of a
line's characters into these two parts is left out). -/
def assemble (name : String) : List Reg → Option Instr
  | [rd, ra, rb] => assemble3 name rd ra rb
  | [r1, r2] => assemble2 name r1 r2
  | _ => none

end Sys2Proof
end

