-- ==== Sys2Proof/Machine/Mpi.lean ====
section
/-! DEFINITION. The meanings of the MPI commands (spec/40_mpi.md R100 to R110), on exact integers. The digit algorithms of the
same file stand in Machine/Digits.lean. -/

namespace Sys2Proof.Machine

/-- mpi_add: x[RD] <- s mod 2^256, RES <- s // 2^256 for s = a + b (R101). -/
def execMpiAdd (rd ra rb : Reg) (s : State) : Result :=
  let sum := s.val ra + s.val rb
  .next ((s.setNat rd (sum % 2 ^ 256)).setRes (carryWord sum)).complete

/-- (a - b) mod 2^256 for a, b < 2^256 (R104), without leaving the natural numbers. -/
def subWrap (a b : Nat) : Nat := (a + (2 ^ 256 - b)) % 2 ^ 256

/-- mpi_sub_borrow: x[RD] <- (a - b) mod 2^256, RES <- all ones if a < b, else 0 (R104). -/
def execMpiSubBorrow (rd ra rb : Reg) (s : State) : Result :=
  let a := s.val ra
  let b := s.val rb
  .next ((s.setNat rd (subWrap a b)).setRes (borrowWord a b)).complete

/-- mpi_cmp: RES <- 1, 0 or -1; no operand register is written (R107). -/
def execMpiCmp (ra rb : Reg) (s : State) : Result :=
  .next (s.setRes (compareWord (s.val ra) (s.val rb))).complete

/-- mpi_widening_mult: the exact 512-bit product into the pair (R110). With an odd RD, which no decoded command has, it ends
with E_ILLEGAL (R77.4, R201; log entry 8, DEDUCED, safe). -/
def execMpiWideningMult (rd ra rb : Reg) (s : State) : Result :=
  if evenPair rd then .next (s.setPair rd (s.val ra * s.val rb)).complete
  else .next (s.raise .illegal)

end Sys2Proof.Machine
end

