-- ==== Sys2Proof/Machine/Dispatch.lean ====
section
/-! DEFINITION. The dispatch of spec/30_encoding.md R78: one arm per command. -/

namespace Sys2Proof.Machine

/-- The execution of one command (R78, spec/20_memory.md R58): its register writes and STATUS, as one transition. -/
def exec (i : Instr) (s : State) : Host.Outcome State Fault Refusal :=
  match i with
  | .mpiAdd rd ra rb => Sys2Proof.Machine.execMpiAdd rd ra rb s
  | .mpiSubBorrow rd ra rb => Sys2Proof.Machine.execMpiSubBorrow rd ra rb s
  | .mpiCmp ra rb => Sys2Proof.Machine.execMpiCmp ra rb s
  | .mpiWideningMult rd ra rb => Sys2Proof.Machine.execMpiWideningMult rd ra rb s
  | .f25519Reduce rd ra => Sys2Proof.Machine.execF25519Reduce rd ra s
  | .f25519Add rd ra rb => Sys2Proof.Machine.execF25519Add rd ra rb s
  | .f25519Sub rd ra rb => Sys2Proof.Machine.execF25519Sub rd ra rb s
  | .f25519Mult rd ra rb => Sys2Proof.Machine.execF25519Mult rd ra rb s
  | .f25519Inv rd ra => Sys2Proof.Machine.execF25519Inv rd ra s
  | .f25519Serialize rd ra => Sys2Proof.Machine.execF25519Serialize rd ra s
  | .f25519Deserialize rd ra => Sys2Proof.Machine.execF25519Deserialize rd ra s
  | .curve25519Ladder rd ra rb => Sys2Proof.Machine.execCurve25519Ladder rd ra rb s

end Sys2Proof.Machine
end

