-- ==== Sys2Proof/Machine/Window.lean ====
section
/-! DEFINITION. The register window (spec/20_memory.md R50 to R57): its map, what a host read answers, and its single bytes. The
window is no memory of its own: every word of it is a view of a register (log entry 10, DEDUCED, safe). -/

namespace Sys2Proof.Machine

/-- What stands at a word of the window (R51). -/
inductive WindowReg where
  /-- x{i}.d{j}, digit j of operand register i -/
  | digit (i : Reg) (j : DigitIx)
  | cmd
  | status
  | res
  | id
  /-- 0x210..0xFFF -/
  | reserved
deriving DecidableEq, Repr

/-- CMD is at 0x200 (R51). -/
def cmdOffset : Offset := 0x200#12

/-- STATUS is at 0x204 (R51). -/
def statusOffset : Offset := 0x204#12

/-- RES is at 0x208 (R51). -/
def resOffset : Offset := 0x208#12

/-- ID is at 0x20C (R51). -/
def idOffset : Offset := 0x20C#12

/-- The offset is a multiple of 4 (R53). -/
def aligned (o : Offset) : Bool := o.toNat % 4 == 0

/-- The window map of R51, by the word an offset lies in: x{i}.d{j} at 0x20*i + 4*j, then CMD, STATUS, RES, ID, then the
reserved words. -/
def windowReg (o : Offset) : WindowReg :=
  if o.toNat < 0x200 then .digit (Fin.ofNat 16 (o.toNat / 0x20)) (Fin.ofNat 8 (o.toNat % 0x20 / 4))
  else if o.toNat / 4 = 0x200 / 4 then .cmd
  else if o.toNat / 4 = 0x204 / 4 then .status
  else if o.toNat / 4 = 0x208 / 4 then .res
  else if o.toNat / 4 = 0x20C / 4 then .id
  else .reserved

/-- The offset of x{i}.d{j}: 0x20*i + 4*j (R51). -/
def digitOffset (i : Reg) (j : DigitIx) : Offset := BitVec.ofNat 12 (0x20 * i.val + 4 * j.val)

/-- What a host read of the register answers (R29, R26, R24, R31, R52, R59). -/
def State.readReg (s : State) : WindowReg → Word
  | .digit i j => digit (s.getX i) j
  | .cmd => s.cmdLast
  | .status => statusRead s.status
  | .res => s.res
  | .id => Config.coreId
  | .reserved => 0x00000000#32

/-- MemRead(o, 4): the 32-bit word at an aligned offset (R59). -/
def State.memRead (s : State) (o : Offset) : Word := s.readReg (windowReg o)

/-- The window byte at offset o: byte o mod 4 of the word it lies in, the lowest byte first (R55). It is the model's read of one
byte of the address space. -/
def State.windowByte (s : State) (o : Offset) : Byte := wordByte (s.memRead o) (o.toNat % 4)

end Sys2Proof.Machine
end

