-- ==== Sys2Proof/Machine/Access.lean ====
section
/-! DEFINITION. What reaches the block from outside: host reads and writes (spec/20_memory.md R52, R53, R58 to R60), the command
a CMD write runs, and the reset input (spec/70_reset_and_hazards.md R230, R232). -/

namespace Sys2Proof.Machine

/-- Execute of R78: decode the word and run the command; an illegal word ends with E_ILLEGAL before any operand is
looked at (R77, R79). -/
def runCommand (w : Word) (s : State) : Result :=
  match decode w with
  | .ok i => exec i s
  | .error _ => .next (s.raise .illegal)

/-- A host write of w to CMD: CMD_LAST <- w, then the command, completely (R29, R58). -/
def writeCmd (w : Word) (s : State) : Result := runCommand w { s with cmdLast := w }

/-- MemWrite(o, 4, v) at an aligned offset (R28, R52, R58, R59). -/
def memWrite (o : Offset) (v : Word) (s : State) : Result :=
  match windowReg o with
  | .digit i j => .next (s.setX i (setDigit (s.getX i) j v))
  | .cmd => writeCmd v s
  | .status => .next { s with status := statusWrite v s.status }
  | .res => .next s
  | .id => .next s
  | .reserved => .next s

/-- A host access. One that is not an aligned 32-bit access is refused by name (R53); a read puts its word on the bus and has no
other effect (R60). -/
def hostAccess (a : HostAccess) (s : State) : Result :=
  match a with
  | .read width o =>
    if width ≠ 4 then .refused (.accessWidth width)
    else if aligned o then .next { s with reply := some (s.memRead o) }
    else .refused (.accessMisaligned o)
  | .write width o v =>
    if width ≠ 4 then .refused (.accessWidth width)
    else if aligned o then memWrite o v s
    else .refused (.accessMisaligned o)

/-- A reset that cuts a CMD write short: the command has no effect and the block is as after reset (R232); what the host's bus
returns is a free value (I3, log entry 5, DESIGN CHOICE, safe). -/
def cutByReset (s : State) : State :=
  { s.applyReset with reply := Config.cutReply s.draws, draws := s.draws + 1 }

/-- One event (R15). -/
def hostEvent (e : HostEvent) (s : State) : Result :=
  match e with
  | .access a => hostAccess a s
  | .reset => .next s.applyReset
  | .cmdCutByReset _ => .next (cutByReset s)

/-- The next event, taken off the list; with none, the block is idle and holds its state (spec/60_exceptions.md R214). -/
def nextEvent (s : State) : Result :=
  match s.pending with
  | [] => .next s
  | e :: rest => hostEvent e { s with pending := rest, reply := none }

/-- The event that carries a command word to the block: one MemWrite to CMD (R58, R82 `cmd`). -/
def cmdEvent (w : Word) : HostEvent := .access (.write 4 cmdOffset w)

/-- s with the command word of the low nbits bits of w as the next event the block receives (log entry 2, DESIGN CHOICE, safe). -/
def placeCommand (s : State) (nbits w : Nat) : State :=
  { s with pending := cmdEvent (BitVec.ofNat 32 (w % 2 ^ nbits)) :: s.pending }

end Sys2Proof.Machine
end

