-- ==== Sys2Proof/Machine/Step.lean ====
section
/-! DEFINITION. The step: the block performs the next event it receives, completely, before it takes another (spec/20_memory.md
R58, R62); and how a command word is put before it. -/

namespace Sys2Proof.Machine

/-- One transition of the block (spec/00_scope.md R15, spec/20_memory.md R62). -/
def step (s : State) : Host.Outcome State Fault Refusal := nextEvent s

/-- s with that command word arriving next: the block has no program counter and fetches nothing, each command is one host write
to CMD (spec/10_state.md R21; log entry 2, DESIGN CHOICE, safe). -/
def State.withFetchWord (s : State) (nbits w : Nat) : State := placeCommand s nbits w

end Sys2Proof.Machine
end

