-- ==== Sys2Proof/Machine/Digits.lean ====
section
/-! DEFINITION. The reference algorithms the spec gives beside the values: the digit algorithms of the MPI layer (spec/40_mpi.md
R102, R105, R108, R111, R115) and the reductions of the F25519 layer (spec/41_f25519.md R132, R137, R140, R143, R161). No meaning calls
them, since a command's value is normative and its algorithm is not (spec/93_implementation_defined.md I10); that they give the
values of the meanings is stated in Certificates/Slice0. Digit lists are little-digit-first (R10, R20). -/

namespace Sys2Proof.Machine

open Sys2Proof.Config (P)

/-- The first n 32-bit digits of v, digit 0 first (R10). -/
def digitsOf (n : Nat) (v : Nat) : List Nat := (List.range n).map (fun j => v / 2 ^ (32 * j) % 2 ^ 32)

/-- The integer of a digit vector: the sum of d_j * 2^(32j) (R10). -/
def digitsValue : List Nat → Nat
  | [] => 0
  | d :: ds => d + 2 ^ 32 * digitsValue ds

/-- Every element is a 32-bit digit. -/
def digitsBounded (ds : List Nat) : Prop := ∀ d ∈ ds, d < 2 ^ 32

/-- The loop of R102: the sum digits from the carry c on, and the carry out. -/
def addDigits : List Nat → List Nat → Nat → List Nat × Nat
  | a :: as, b :: bs, c =>
    let t := a + b + c
    let rest := addDigits as bs (t / 2 ^ 32)
    (t % 2 ^ 32 :: rest.1, rest.2)
  | _, _, c => ([], c)

/-- The loop of R105: the difference digits from the borrow br on, and the borrow out (0 or 1). -/
def subDigits : List Nat → List Nat → Nat → List Nat × Nat
  | a :: as, b :: bs, br =>
    let t : Int := (a : Int) - (b : Int) - (br : Int)
    let rest := subDigits as bs (if t < 0 then 1 else 0)
    ((t % 2 ^ 32).toNat :: rest.1, rest.2)
  | _, _, br => ([], br)

/-- The loop of R108 on digits given most significant first: the first differing digit decides. -/
def cmpDigitsFromTop : List Nat → List Nat → Int
  | a :: as, b :: bs => if a > b then 1 else if a < b then -1 else cmpDigitsFromTop as bs
  | _, _ => 0

/-- R108 on digit vectors: digits 7 down to 0. -/
def cmpDigits (as bs : List Nat) : Int := cmpDigitsFromTop as.reverse bs.reverse

/-- The inner loop of R111 for one digit m of b, over the window w[i..]: w[i+j] and the carry take
t = w[i+j] + digit(a, j) * m + c, and at the end w[i+8] takes the carry. -/
def mulRow : List Nat → List Nat → Nat → Nat → List Nat
  | w :: ws, a :: as, m, c =>
    let t := w + a * m + c
    t % 2 ^ 32 :: mulRow ws as m (t / 2 ^ 32)
  | _ :: ws, [], _, c => c :: ws
  | [], _, _, _ => []

/-- The outer loop of R111 over the digits of b: after each row the lowest digit of the window is final. -/
def mulRows : List Nat → List Nat → List Nat → List Nat
  | ws, as, m :: bs =>
    match mulRow ws as m 0 with
    | w :: rest => w :: mulRows rest as bs
    | [] => []
  | ws, _, [] => ws

/-- The schoolbook product of R111 on 16 zero digits. -/
def mulDigits (as bs : List Nat) : List Nat := mulRows (List.replicate Config.nDigitsWide 0) as bs

/-- The largest accumulator value t the inner loop of R111 reaches in one row. -/
def mulRowPeak : List Nat → List Nat → Nat → Nat → Nat
  | w :: ws, a :: as, m, c =>
    let t := w + a * m + c
    max t (mulRowPeak ws as m (t / 2 ^ 32))
  | _, _, _, _ => 0

/-- The largest accumulator value t of the whole multiplication of R111. -/
def mulPeak : List Nat → List Nat → List Nat → Nat
  | ws, as, m :: bs => max (mulRowPeak ws as m 0) (mulPeak ((mulRow ws as m 0).drop 1) as bs)
  | _, _, [] => 0

/-- set_small of R115: zext_256(v), digit 0 = v and the others 0. -/
def setSmall (v : Word) : Operand := v.setWidth 256

/-- The loop of R132, at most n subtractions of P. -/
def subtractP : Nat → Nat → Nat
  | 0, v => v
  | n + 1, v => if v ≥ P then subtractP n (v - P) else v

/-- FinalReduce of R132: for v < 2^256 < 3P the loop makes at most two subtractions. -/
def finalReduce (v : Nat) : Nat := subtractP 2 v

/-- f25519_add by the integer layer and the reduction pass (R137). -/
def addByReduction (a b : Nat) : Nat := finalReduce ((a + b) % 2 ^ 256)

/-- f25519_sub as a + (P - b) and the reduction pass (R140). -/
def subByNegation (a b : Nat) : Nat := finalReduce ((a + (P - b)) % 2 ^ 256)

/-- One fold at bit 255 with factor 19 (R143). -/
def fold (p : Nat) : Nat := p % 2 ^ 255 + 19 * (p / 2 ^ 255)

/-- f25519_mult by the widening product, two folds and the reduction pass (R143). -/
def mulByFolding (a b : Nat) : Nat := finalReduce (fold (fold (a * b)))

/-- mul_small by one fold and the reduction pass (R161). -/
def mulSmallByFolding (a k : Nat) : Nat := finalReduce (fold (a * k))

end Sys2Proof.Machine
end

