-- ==== Sys2Proof/Machine/Platform.lean ====
section
/-! DEFINITION. What the platform adds around one block: the window base (spec/20_memory.md R54), several independent instances
(spec/60_exceptions.md R212), and the interleaving of several masters' accesses (spec/70_reset_and_hazards.md R241). Log entry 13. -/

namespace Sys2Proof.Machine

/-- The window offset of a bus address for an instance whose window starts at base (R50, R54); none outside the window. -/
def busOffset (base addr : Nat) : Option Offset :=
  if base ≤ addr ∧ addr < base + Config.windowBytes then some (BitVec.ofNat 12 (addr - base)) else none

/-- One instance of the block: its window base and its own state (R212: "each with its own state and window"). -/
structure Instance where
  base : Nat
  block : State
deriving DecidableEq, Repr

/-- Several instances; they share nothing (R212). -/
abbrev Platform := List Instance

/-- Instance k performs its next event; the others do not move. None where there is no instance k or its step stops. -/
def platformStep : Nat → Platform → Option Platform
  | _, [] => none
  | 0, m :: rest =>
    match step m.block with
    | .next t => some ({ m with block := t } :: rest)
    | .fault _ => none
    | .refused _ => none
  | k + 1, m :: rest => (platformStep k rest).map (m :: ·)

/-- `Interleaving as bs cs`: cs is an order in which one block receives the sequences as and bs of two masters (R241). -/
inductive Interleaving {α : Type} : List α → List α → List α → Prop where
  | nil : Interleaving [] [] []
  | left {as bs cs : List α} (a : α) (h : Interleaving as bs cs) : Interleaving (a :: as) bs (a :: cs)
  | right {as bs cs : List α} (b : α) (h : Interleaving as bs cs) : Interleaving as (b :: bs) (b :: cs)

end Sys2Proof.Machine
end

