-- ==== Sys2Proof/Machine/Script.lean ====
section
/-! DEFINITION. The host-script notation of spec/30_encoding.md R82, each item the list of host accesses it stands for. -/

namespace Sys2Proof.Machine

/-- `wr xN, V`: eight writes of the digits of V, digit 0 first (R82). -/
def scriptWr (n : Reg) (v : Operand) : List HostEvent :=
  (List.finRange 8).map (fun j => .access (.write 4 (digitOffset n j) (digit v j)))

/-- `wrmsg xN, m`: the same eight writes carrying the message m as the 32 bytes of the register (R82, R56). -/
def scriptWrmsg (n : Reg) (m : List Byte) : List HostEvent := scriptWr n (BitVec.ofNat 256 (messageValue m))

/-- `cmd <assembly line>`: one write of the command's word to CMD (R82). -/
def scriptCmd (i : Instr) : List HostEvent := [cmdEvent (encode i)]

/-- `rd xN`: eight word reads (R82). -/
def scriptRdX (n : Reg) : List HostEvent := (List.finRange 8).map (fun j => .access (.read 4 (digitOffset n j)))

/-- `rd STATUS` (R82). -/
def scriptRdStatus : List HostEvent := [.access (.read 4 statusOffset)]

/-- `rd RES` (R82). -/
def scriptRdRes : List HostEvent := [.access (.read 4 resOffset)]

/-- `clr`: clears STATUS.SERR (R82). -/
def scriptClr : List HostEvent := [.access (.write 4 statusOffset 0x00000100#32)]

end Sys2Proof.Machine
end

