-- ==== Sys2Proof/Safety.lean ====
section
/-! DEFINITION. What counts as a safe run, in the terms the statements use: the legal states of the block's registers, the
accesses that have a meaning, and the words of the window a command may change. -/

namespace Sys2Proof

/-- The destination operand registers of a command (R73, R110). -/
def Instr.dests : Instr → List Reg
  | .mpiAdd rd _ _ => [rd]
  | .mpiSubBorrow rd _ _ => [rd]
  | .mpiCmp _ _ => []
  | .mpiWideningMult rd _ _ => [rd, Machine.pairHigh rd]
  | .f25519Reduce rd _ => [rd]
  | .f25519Add rd _ _ => [rd]
  | .f25519Sub rd _ _ => [rd]
  | .f25519Mult rd _ _ => [rd]
  | .f25519Inv rd _ => [rd]
  | .f25519Serialize rd _ => [rd]
  | .f25519Deserialize rd _ => [rd]
  | .curve25519Ladder rd _ _ => [rd]

/-- The source operand registers of a command (R73). -/
def Instr.sources : Instr → List Reg
  | .mpiAdd _ ra rb => [ra, rb]
  | .mpiSubBorrow _ ra rb => [ra, rb]
  | .mpiCmp ra rb => [ra, rb]
  | .mpiWideningMult _ ra rb => [ra, rb]
  | .f25519Reduce _ ra => [ra]
  | .f25519Add _ ra rb => [ra, rb]
  | .f25519Sub _ ra rb => [ra, rb]
  | .f25519Mult _ ra rb => [ra, rb]
  | .f25519Inv _ ra => [ra]
  | .f25519Serialize _ ra => [ra]
  | .f25519Deserialize _ ra => [ra]
  | .curve25519Ladder _ ra rb => [ra, rb]

/-- The source registers whose value must be below P (R131, R201). -/
def Instr.checked : Instr → List Reg
  | .mpiAdd _ _ _ => []
  | .mpiSubBorrow _ _ _ => []
  | .mpiCmp _ _ => []
  | .mpiWideningMult _ _ _ => []
  | .f25519Reduce _ _ => []
  | .f25519Add _ ra rb => [ra, rb]
  | .f25519Sub _ ra rb => [ra, rb]
  | .f25519Mult _ ra rb => [ra, rb]
  | .f25519Inv _ ra => [ra]
  | .f25519Serialize _ ra => [ra]
  | .f25519Deserialize _ ra => [ra]
  | .curve25519Ladder _ _ rb => [rb]

/-- The commands that write RES when they succeed (R24, R243). -/
def Instr.writesRes : Instr → Bool
  | .mpiAdd _ _ _ => true
  | .mpiSubBorrow _ _ _ => true
  | .mpiCmp _ _ => true
  | .mpiWideningMult _ _ _ => false
  | .f25519Reduce _ _ => false
  | .f25519Add _ _ _ => false
  | .f25519Sub _ _ _ => false
  | .f25519Mult _ _ _ => false
  | .f25519Inv _ _ => false
  | .f25519Serialize _ _ => false
  | .f25519Deserialize _ _ => false
  | .curve25519Ladder _ _ _ => false

/-- The commands of the F25519 and Curve25519 layers, whose results are field elements (R130, R180). -/
def Instr.fieldCommand : Instr → Bool
  | .mpiAdd _ _ _ => false
  | .mpiSubBorrow _ _ _ => false
  | .mpiCmp _ _ => false
  | .mpiWideningMult _ _ _ => false
  | .f25519Reduce _ _ => true
  | .f25519Add _ _ _ => true
  | .f25519Sub _ _ _ => true
  | .f25519Mult _ _ _ => true
  | .f25519Inv _ _ => true
  | .f25519Serialize _ _ => true
  | .f25519Deserialize _ _ => true
  | .curve25519Ladder _ _ _ => true

end Sys2Proof

namespace Sys2Proof.Machine

/-- STATUS holds what R26 and R200 allow: ERR is one of the codes 0, 1, 2 and the reserved bits 7:4 and 31:9 are 0. -/
def statusLegal (status : Word) : Bool :=
  (errField status == 0#4 || errField status == 1#4 || errField status == 2#4) && (status &&& 0xFFFFFEF0#32 == 0#32)

/-- RES holds one of the values of the table of R24, or the reset value 0. -/
def resLegal (res : Word) : Bool := res == 0x00000000#32 || res == 0x00000001#32 || res == 0xFFFFFFFF#32

/-- The invariant of the block: STATUS and RES hold only values the spec gives them (R24, R26, R200). -/
def RegistersLegal (s : State) : Prop := statusLegal s.status = true ∧ resLegal s.res = true

/-- The access is an aligned 32-bit access (R53). -/
def HostAccess.specified : HostAccess → Bool
  | .read width o => width == 4 && aligned o
  | .write width o _ => width == 4 && aligned o

/-- The event has a meaning in the spec: an aligned 32-bit access or the reset input. -/
def HostEvent.specified : HostEvent → Bool
  | .access a => a.specified
  | .reset => true
  | .cmdCutByReset _ => true

/-- Every event the block will receive has a meaning. -/
def State.hostSpecified (s : State) : Bool := s.pending.all HostEvent.specified

/-- STATUS after a command that succeeded, as the statements write it: ERR = 0, every other bit as before (R27, R28). -/
def statusOk (status : Word) : Word := status &&& 0xFFFFFFF0#32

/-- STATUS after a command that ended with E_RANGE: ERR = 2, SERR = 1, every other bit as before (R27, R28, R200). -/
def statusRange (status : Word) : Word := (status &&& 0xFFFFFFF0#32) ||| 0x00000102#32

/-- STATUS after a command that ended with E_ILLEGAL: ERR = 1, SERR = 1, every other bit as before (R27, R28, R200). -/
def statusIllegal (status : Word) : Word := (status &&& 0xFFFFFFF0#32) ||| 0x00000101#32

/-- The conditions of R77 on a command word, on the word as a number: OP = w % 2^8, RD = w / 2^8 % 2^4, RB = w / 2^16 % 2^4,
RSV = w / 2^20. -/
def illegalWord (w : Nat) : Prop :=
  w % 2 ^ 8 ∉ [0x01, 0x02, 0x03, 0x04, 0x10, 0x11, 0x12, 0x13, 0x14, 0x15, 0x16, 0x20] ∨
  w / 2 ^ 20 ≠ 0 ∨
  (w % 2 ^ 8 = 0x03 ∧ w / 2 ^ 8 % 2 ^ 4 ≠ 0) ∨
  (w % 2 ^ 8 ∈ [0x10, 0x14, 0x15, 0x16] ∧ w / 2 ^ 16 % 2 ^ 4 ≠ 0) ∨
  (w % 2 ^ 8 = 0x04 ∧ w / 2 ^ 8 % 2 ^ 4 % 2 = 1)

/-- A command word with the given fields, as the number R80 gives: (B << 16) | (A << 12) | (D << 8) | OP. -/
def wordOf (op : Nat) (rd ra rb : Reg) : Word :=
  BitVec.ofNat 32 (rb.val * 2 ^ 16 + ra.val * 2 ^ 12 + rd.val * 2 ^ 8 + op)

/-- The words of one OP value, by their fields (R70, R71): those with RSV = 0 whose register fields are as R73 and R74 ask decode to
the command mk of the fields; every other one ends with E_ILLEGAL and writes no operand register and no RES (R77). -/
def WordsOf (op : Nat) (fieldsOk : Reg → Reg → Reg → Prop) (mk : Reg → Reg → Reg → Instr) : Prop :=
  ∀ (w : Word) (rd ra rb : Reg), w.toNat % 2 ^ 8 = op → w.toNat / 2 ^ 8 % 2 ^ 4 = rd.val → w.toNat / 2 ^ 12 % 2 ^ 4 = ra.val →
    w.toNat / 2 ^ 16 % 2 ^ 4 = rb.val →
    (w.toNat / 2 ^ 20 = 0 ∧ fieldsOk rd ra rb → decode w = .ok (mk rd ra rb)) ∧
    (¬ (w.toNat / 2 ^ 20 = 0 ∧ fieldsOk rd ra rb) →
      ∀ s : State, runCommand w s = .next { s with status := statusIllegal s.status })

/-- The two states agree on the block's own registers: x, RES, STATUS, CMD_LAST (R16). -/
def SameBlock (s t : State) : Prop :=
  t.x = s.x ∧ t.res = s.res ∧ t.status = s.status ∧ t.cmdLast = s.cmdLast

/-- The window byte at offset o belongs to operand register r: bytes 0x20*r .. 0x20*r + 0x1F (R51). -/
def inRegister (o : Offset) (r : Reg) : Prop := 0x20 * r.val ≤ o.toNat ∧ o.toNat < 0x20 * r.val + 0x20

/-- The curve of the ladder, y^2 = x^3 + 486662 x^2 + x over the field of P elements (R171), as a Weierstrass curve
(log entry 15, PRESUMED). -/
def montgomeryCurve : WeierstrassCurve.Affine (ZMod Config.P) :=
  { a₁ := 0, a₂ := 486662, a₃ := 0, a₄ := 1, a₆ := 0 }

/-- The XZ-projective pair (X : Z) represents the point: X/Z is its x-coordinate, or Z = 0 (and X is not 0) for the point at
infinity (R170, R173). -/
def represents (T : Point) : montgomeryCurve.Point → Prop
  | .zero => (T.Z : ZMod Config.P) = 0 ∧ (T.X : ZMod Config.P) ≠ 0
  | .some x _ _ => (T.Z : ZMod Config.P) ≠ 0 ∧ (T.X : ZMod Config.P) = x * T.Z

/-- A run of digit writes: each writes one word of an operand register (R59). -/
def digitWrites (l : List (Reg × DigitIx × Word)) : List HostEvent :=
  l.map (fun e => .access (.write 4 (digitOffset e.1 e.2.1) e.2.2))

end Sys2Proof.Machine
end

