-- ==== Sys2Proof/Certificates/Slice0/Obligations.lean ====
section
/-! DEFINITION. The statements about the block, each a formalisation of rules of spec/. Their titles and the rules they cite stand in
OBLIGATIONS.json. A command's result is written as the whole next state, so that the record update says both what is
written and that everything else stays. "The spec's own inference" marks a rule the spec itself labels derived. -/

open Sys2Proof Sys2Proof.Machine

/-! ## Reset and encoding -/

/-- R37: the value of every piece of state after reset. -/
def Obligations.ResetStateHoldsSpecValues : Prop :=
  (∀ r : Reg, State.reset.getX r = 0#256) ∧ State.reset.memRead 0x208#12 = 0x00000000#32 ∧
    errField State.reset.status = 0#4 ∧ serrField State.reset.status = false ∧ State.reset.status = 0x00000000#32 ∧
    State.reset.cmdLast = 0x00000000#32 ∧ State.reset.memRead 0x20C#12 = 0x25510007#32

/-- R230 and R232: the reset input, between accesses or during a command, leaves the block exactly as after reset; the
events that have not arrived yet stay (the model's own field, log entry 6). -/
def Obligations.ResetInputRestoresResetState : Prop :=
  ∀ (s : State) (e : HostEvent) (rest : List HostEvent), s.pending = e :: rest →
    (e = .reset ∨ ∃ w, e = .cmdCutByReset w) →
    ∃ t, step s = .next t ∧ SameBlock State.reset t ∧ t.pending = rest

/-- A few command words of spec/95_test_vectors.md 2.1 decode to the commands they stand for. -/
def Obligations.SpecWordsDecode : Prop :=
  decode 0x00010201#32 = .ok (.mpiAdd 2 0 1) ∧ decode 0x00010003#32 = .ok (.mpiCmp 0 1) ∧
    decode 0x000FFE04#32 = .ok (.mpiWideningMult 14 15 15) ∧ decode 0x00000110#32 = .ok (.f25519Reduce 1 0) ∧
    decode 0x00055313#32 = .ok (.f25519Mult 3 5 5) ∧ decode 0x00000116#32 = .ok (.f25519Deserialize 1 0) ∧
    decode 0x00010220#32 = .ok (.curve25519Ladder 2 0 1)

/-- R70, R73, R76, R80: decoding the encoding of a well-formed command gives it back, for every operand. -/
def Obligations.DecodeOfEncode : Prop :=
  ∀ i : Instr, i.wellFormed = true → decode (encode i) = .ok i

/-- R72, R77: a word that decodes is the one encoding of its command, which is well-formed. -/
def Obligations.EncodeOfDecode : Prop :=
  ∀ (w : Word) (i : Instr), decode w = .ok i → i.wellFormed = true ∧ encode i = w

/-- R77, whole: a word is illegal exactly on its four grounds; then its command ends with E_ILLEGAL and writes no operand register
and no RES; every other word is exactly one command. -/
def Obligations.IllegalWordsEndWithEIllegal : Prop :=
  ∀ w : Word,
    (illegalWord w.toNat ↔ ∀ i, decode w ≠ .ok i) ∧
    (illegalWord w.toNat → ∀ (s : State) (rest : List HostEvent), s.pending = cmdEvent w :: rest →
      step s = .next { s with pending := rest, reply := none, cmdLast := w, status := statusIllegal s.status }) ∧
    (¬ illegalWord w.toNat → ∃! i : Instr, i.wellFormed = true ∧ encode i = w)

/-- spec/opcode_table.json and R76: a word decodes exactly when it fits a row, and then to the command of that row only. -/
def Obligations.DecoderAgreesWithOpcodeTable : Prop :=
  ∀ w : Word,
    ((∃ i, decode w = .ok i) ↔ ∃ r ∈ opcodeTable, r.fits w = true) ∧
    (∀ i, decode w = .ok i → ∀ r ∈ opcodeTable, r.fits w = true → r.mnemonic = i.mnemonic)

/-- R80 and R81: a line of a command's mnemonic and operands assembles to that command, and f25519_square xD, xA to
f25519_mult xD, xA, xA. -/
def Obligations.AssemblerReadsLines : Prop :=
  (∀ i : Instr, i.wellFormed = true → assemble i.mnemonic i.operands = some i) ∧
    ∀ rd ra : Reg, (assemble "f25519_square" [rd, ra]).map encode = some (wordOf 0x13 rd ra ra)

/-! ## The step -/

/-- R29, R58, R78: a host write of w to CMD records w in CMD_LAST and runs the command w decodes to, as one step. -/
def Obligations.StepRunsDecodedCommand : Prop :=
  ∀ (s : State) (w : Word) (i : Instr) (rest : List HostEvent),
    s.pending = .access (.write 4 0x200#12 w) :: rest → decode w = .ok i →
    step s = exec i { s with pending := rest, reply := none, cmdLast := w }

/-- R24, R26, R200: after reset STATUS and RES hold legal values. -/
def Obligations.ResetStateIsLegal : Prop := RegistersLegal State.reset

/-- R24, R26, R200: every step keeps STATUS and RES legal: ERR one of 0, 1, 2, the reserved bits 0, RES one of 0, 1, all ones. -/
def Obligations.StepKeepsRegistersLegal : Prop :=
  ∀ s t : State, RegistersLegal s → step s = .next t → RegistersLegal t

/-- R17, R62: a block that receives only aligned 32-bit accesses and resets takes them one by one, in order, and never stops. -/
def Obligations.SpecifiedAccessesNeverStop : Prop :=
  ∀ (n : Nat) (s : State), s.hostSpecified = true →
    ∃ t : State, core.run n s = .next t ∧ t.pending = s.pending.drop n ∧ t.hostSpecified = true

/-- R53: an access that is not an aligned 32-bit access is refused, under one of two names; an aligned 32-bit access is performed. -/
def Obligations.UnspecifiedAccessRefused : Prop :=
  ∀ (s : State) (width : Nat) (o : Offset) (v : Word) (rest : List HostEvent),
    (s.pending = .access (.read width o) :: rest ∨ s.pending = .access (.write width o v) :: rest) →
    (¬ (width = 4 ∧ o.toNat % 4 = 0) →
      step s = .refused (.accessWidth width) ∨ step s = .refused (.accessMisaligned o)) ∧
    (width = 4 ∧ o.toNat % 4 = 0 → ∃ t, step s = .next t ∧ t.pending = rest)

/-- R214, R231: the block's registers change only at a host write or at reset. -/
def Obligations.OnlyWritesAndResetChangeBlock : Prop :=
  ∀ s t : State, step s = .next t → ¬ SameBlock s t →
    ∃ e rest, s.pending = e :: rest ∧
      ((∃ o v, e = .access (.write 4 o v) ∧ o.toNat < 0x208) ∨ e = .reset ∨ ∃ w, e = .cmdCutByReset w)

/-! ## How a command ends -/

/-- R27, R200, R201, R205: every command word ends with exactly the code the rules give: E_ILLEGAL for an illegal word, E_RANGE
when a checked source is not below P, else 0. -/
def Obligations.CommandEndsWithItsCode : Prop :=
  ∀ (w : Word) (s : State), ∃ t : State, runCommand w s = .next t ∧
    (illegalWord w.toNat → errField t.status = 1#4) ∧
    (∀ i, decode w = .ok i →
      ((∃ r ∈ i.checked, Config.P ≤ s.val r) → errField t.status = 2#4) ∧
      ((∀ r ∈ i.checked, s.val r < Config.P) → errField t.status = 0#4))

/-- R202: a command that ends with an error changes STATUS and CMD_LAST only, and STATUS takes code 1 or 2 and SERR. -/
def Obligations.ErrorWritesNoResult : Prop :=
  ∀ (s t : State) (w : Word) (rest : List HostEvent), s.pending = cmdEvent w :: rest → step s = .next t →
    errField t.status ≠ 0#4 →
    serrField t.status = true ∧
      (t = { s with pending := rest, reply := none, cmdLast := w, status := statusIllegal s.status } ∨
        t = { s with pending := rest, reply := none, cmdLast := w, status := statusRange s.status })

/-- R28, whole: how SERR is set and cleared. -/
def Obligations.StickyErrorRule : Prop :=
  (∀ (s t : State) (w : Word), runCommand w s = .next t →
    serrField t.status = (serrField s.status || errField t.status != 0#4)) ∧
  (∀ (s : State) (v : Word) (rest : List HostEvent), s.pending = .access (.write 4 0x204#12 v) :: rest →
    ∃ t : State, step s = .next t ∧
      (∀ k, k < 32 → t.status.getLsbD k = (if k = 8 ∧ v.getLsbD 8 = true then false else s.status.getLsbD k)) ∧
      t.x = s.x ∧ t.res = s.res ∧ t.cmdLast = s.cmdLast) ∧
  (∀ s t : State, step s = .next t → serrField s.status = true → serrField t.status = false →
    ∃ e rest, s.pending = e :: rest ∧
      ((∃ o v, e = .access (.write 4 o v) ∧ o = 0x204#12 ∧ v.getLsbD 8 = true) ∨ e = .reset ∨ ∃ w, e = .cmdCutByReset w))

/-- R24, R243: a command word changes RES only when it is mpi_add, mpi_sub_borrow or mpi_cmp and ends with code 0. -/
def Obligations.OnlyThreeCommandsWriteRes : Prop :=
  ∀ (w : Word) (s t : State), runCommand w s = .next t → t.res ≠ s.res →
    errField t.status = 0#4 ∧
      ((∃ rd ra rb, decode w = .ok (.mpiAdd rd ra rb)) ∨ (∃ rd ra rb, decode w = .ok (.mpiSubBorrow rd ra rb)) ∨
        ∃ ra rb, decode w = .ok (.mpiCmp ra rb))

/-- R73, R24, R27, R28 and the window map of R51: what each of the twelve commands leaves unchanged. A command stores to no memory;
the window bytes it can change are those of its destination registers, of STATUS, and of RES where it writes RES. -/
def Obligations.CommandFrame : Prop :=
  ∀ (i : Instr) (s t : State), exec i s = .next t →
    (∀ r : Reg, r ∉ i.dests → t.getX r = s.getX r) ∧
    (i.writesRes = false → t.res = s.res) ∧
    (∀ k, 4 ≤ k → k ≠ 8 → t.status.getLsbD k = s.status.getLsbD k) ∧
    t.cmdLast = s.cmdLast ∧ t.pending = s.pending ∧ t.reply = s.reply ∧ t.draws = s.draws ∧
    (∀ o : Offset, (∀ r ∈ i.dests, ¬ inRegister o r) → ¬ (0x204 ≤ o.toNat ∧ o.toNat < 0x208) →
      (i.writesRes = true → ¬ (0x208 ≤ o.toNat ∧ o.toNat < 0x20C)) → t.windowByte o = s.windowByte o)

/-- R8 (the spec's own inference); R183 says it of the ladder: a command's code and results are a function of its source registers
alone. -/
def Obligations.ResultDependsOnSourcesOnly : Prop :=
  ∀ (i : Instr) (s t s' t' : State), (∀ r ∈ i.sources, s.getX r = t.getX r) →
    exec i s = .next s' → exec i t = .next t' →
    errField s'.status = errField t'.status ∧
      (errField s'.status = 0#4 →
        (∀ r ∈ i.dests, s'.getX r = t'.getX r) ∧ (i.writesRes = true → s'.res = t'.res))

/-! ## MPI commands -/

/-- R101: encoding, register result, carry and status of mpi_add. -/
def Obligations.MpiAddResult : Prop :=
  WordsOf 0x01 (fun _ _ _ => True) .mpiAdd ∧
    ∀ (rd ra rb : Reg) (s : State), exec (.mpiAdd rd ra rb) s = .next
      { s with
        x := s.x.set rd.val (BitVec.ofNat 256 ((s.val ra + s.val rb) % 2 ^ 256)) rd.isLt
        res := if s.val ra + s.val rb < 2 ^ 256 then 0x00000000#32 else 0x00000001#32
        status := statusOk s.status }

/-- R104: encoding, register result, borrow and status of mpi_sub_borrow. -/
def Obligations.MpiSubBorrowResult : Prop :=
  WordsOf 0x02 (fun _ _ _ => True) .mpiSubBorrow ∧
    ∀ (rd ra rb : Reg) (s : State), exec (.mpiSubBorrow rd ra rb) s = .next
      { s with
        x := s.x.set rd.val (BitVec.ofInt 256 (((s.val ra : Int) - (s.val rb : Int)) % 2 ^ 256)) rd.isLt
        res := if s.val ra < s.val rb then 0xFFFFFFFF#32 else 0x00000000#32
        status := statusOk s.status }

/-- R107: encoding, result and status of mpi_cmp; no operand register is written. -/
def Obligations.MpiCmpResult : Prop :=
  WordsOf 0x03 (fun rd _ _ => rd = 0) (fun _ ra rb => .mpiCmp ra rb) ∧
    ∀ (ra rb : Reg) (s : State),
      (s.val ra > s.val rb → exec (.mpiCmp ra rb) s =
        .next { s with res := 0x00000001#32, status := statusOk s.status }) ∧
      (s.val ra = s.val rb → exec (.mpiCmp ra rb) s =
        .next { s with res := 0x00000000#32, status := statusOk s.status }) ∧
      (s.val ra < s.val rb → exec (.mpiCmp ra rb) s =
        .next { s with res := 0xFFFFFFFF#32, status := statusOk s.status })

/-- R110: encoding, both halves of the exact product, and status of mpi_widening_mult, for every pair; the words with an odd RD
end with E_ILLEGAL. -/
def Obligations.MpiWideningMultResult : Prop :=
  WordsOf 0x04 (fun rd _ _ => rd.val % 2 = 0) .mpiWideningMult ∧
    ∀ (rd ra rb : Reg),
      (rd.val % 2 = 0 → ∀ s : State, ∃ t : State, exec (.mpiWideningMult rd ra rb) s = .next t ∧
        t.val rd = s.val ra * s.val rb % 2 ^ 256 ∧
        t.val (rd + 1) = s.val ra * s.val rb / 2 ^ 256 ∧
        (∀ r : Reg, r ≠ rd → r ≠ rd + 1 → t.getX r = s.getX r) ∧
        t.res = s.res ∧ t.status = statusOk s.status ∧ t.cmdLast = s.cmdLast ∧ t.pending = s.pending ∧
        t.reply = s.reply ∧ t.draws = s.draws)

/-- R117 (the spec's own inference): subtracting b from a and adding b back gives a, and the addition carries exactly when the subtraction borrowed. -/
def Obligations.AddUndoesSubtract : Prop :=
  ∀ (s : State) (d c ra rb : Reg), c ≠ rb →
    ∃ s1 s2 : State, exec (.mpiSubBorrow c ra rb) s = .next s1 ∧ exec (.mpiAdd d c rb) s1 = .next s2 ∧
      s2.getX d = s.getX ra ∧
      ((s1.res = 0xFFFFFFFF#32 ∧ s2.res = 0x00000001#32) ∨ (s1.res = 0x00000000#32 ∧ s2.res = 0x00000000#32))

/-! ## F25519 commands -/

/-- R133: encoding and result of f25519_reduce, for every value. -/
def Obligations.F25519ReduceResult : Prop :=
  WordsOf 0x10 (fun _ _ rb => rb = 0) (fun rd ra _ => .f25519Reduce rd ra) ∧
    ∀ (rd ra : Reg) (s : State), exec (.f25519Reduce rd ra) s = .next
      { s with
        x := s.x.set rd.val (BitVec.ofNat 256 (s.val ra % (2 ^ 255 - 19))) rd.isLt
        status := statusOk s.status }

/-- R136: encoding, result and range error of f25519_add. -/
def Obligations.F25519AddResult : Prop :=
  WordsOf 0x11 (fun _ _ _ => True) .f25519Add ∧
    ∀ (rd ra rb : Reg) (s : State),
      (s.val ra < Config.P ∧ s.val rb < Config.P → exec (.f25519Add rd ra rb) s = .next
        { s with
          x := s.x.set rd.val (BitVec.ofNat 256 ((s.val ra + s.val rb) % (2 ^ 255 - 19))) rd.isLt
          status := statusOk s.status }) ∧
      (Config.P ≤ s.val ra ∨ Config.P ≤ s.val rb →
        exec (.f25519Add rd ra rb) s = .next { s with status := statusRange s.status })

/-- R139: encoding, result and range error of f25519_sub. -/
def Obligations.F25519SubResult : Prop :=
  WordsOf 0x12 (fun _ _ _ => True) .f25519Sub ∧
    ∀ (rd ra rb : Reg) (s : State),
      (s.val ra < Config.P ∧ s.val rb < Config.P → exec (.f25519Sub rd ra rb) s = .next
        { s with
          x := s.x.set rd.val (BitVec.ofInt 256 (((s.val ra : Int) - (s.val rb : Int)) % (2 ^ 255 - 19))) rd.isLt
          status := statusOk s.status }) ∧
      (Config.P ≤ s.val ra ∨ Config.P ≤ s.val rb →
        exec (.f25519Sub rd ra rb) s = .next { s with status := statusRange s.status })

/-- R142: encoding, result and range error of f25519_mult. -/
def Obligations.F25519MultResult : Prop :=
  WordsOf 0x13 (fun _ _ _ => True) .f25519Mult ∧
    ∀ (rd ra rb : Reg) (s : State),
      (s.val ra < Config.P ∧ s.val rb < Config.P → exec (.f25519Mult rd ra rb) s = .next
        { s with
          x := s.x.set rd.val (BitVec.ofNat 256 (s.val ra * s.val rb % (2 ^ 255 - 19))) rd.isLt
          status := statusOk s.status }) ∧
      (Config.P ≤ s.val ra ∨ Config.P ≤ s.val rb →
        exec (.f25519Mult rd ra rb) s = .next { s with status := statusRange s.status })

/-- R146: encoding, result and range error of f25519_inv. The result is the power z^(P-2) mod P, which the machine computes by
the chain of R147. -/
def Obligations.F25519InvResult : Prop :=
  WordsOf 0x14 (fun _ _ rb => rb = 0) (fun rd ra _ => .f25519Inv rd ra) ∧
    ∀ (rd ra : Reg) (s : State),
      (s.val ra < Config.P → exec (.f25519Inv rd ra) s = .next
        { s with
          x := s.x.set rd.val (BitVec.ofNat 256 (fpow (s.val ra) (Config.P - 2))) rd.isLt
          status := statusOk s.status }) ∧
      (Config.P ≤ s.val ra → exec (.f25519Inv rd ra) s = .next { s with status := statusRange s.status })

/-- R150: encoding, result and range error of f25519_serialize; the window bytes of the destination are the bytes of e. -/
def Obligations.F25519SerializeResult : Prop :=
  WordsOf 0x15 (fun _ _ rb => rb = 0) (fun rd ra _ => .f25519Serialize rd ra) ∧
    ∀ (rd ra : Reg) (s : State),
      (s.val ra < Config.P → ∃ t, exec (.f25519Serialize rd ra) s = .next t ∧
        t = { s with x := s.x.set rd.val (s.getX ra) rd.isLt, status := statusOk s.status } ∧
        ∀ b, b < 32 → t.windowByte (BitVec.ofNat 12 (0x20 * rd.val + b)) = (s.getX ra).extractLsb' (8 * b) 8) ∧
      (Config.P ≤ s.val ra → exec (.f25519Serialize rd ra) s = .next { s with status := statusRange s.status })

/-- R153: encoding, result and range error of f25519_deserialize; the value is that of the message in the source's window
bytes, never reduced. -/
def Obligations.F25519DeserializeResult : Prop :=
  WordsOf 0x16 (fun _ _ rb => rb = 0) (fun rd ra _ => .f25519Deserialize rd ra) ∧
    ∀ (rd ra : Reg) (s : State),
      (s.val ra < Config.P → ∃ t, exec (.f25519Deserialize rd ra) s = .next t ∧
        t = { s with x := s.x.set rd.val (s.getX ra) rd.isLt, status := statusOk s.status } ∧
        t.val rd = messageValue ((List.range 32).map (fun b => s.windowByte (BitVec.ofNat 12 (0x20 * ra.val + b))))) ∧
      (Config.P ≤ s.val ra → exec (.f25519Deserialize rd ra) s = .next { s with status := statusRange s.status })

/-- R154 (the spec's own inference): f25519_serialize and f25519_deserialize compute the same function. -/
def Obligations.SerializeEqualsDeserialize : Prop :=
  ∀ (rd ra : Reg) (s : State), exec (.f25519Serialize rd ra) s = exec (.f25519Deserialize rd ra) s

/-- R130: every result a field command writes is below P; so is the ladder's (R180). -/
def Obligations.FieldResultsBelowP : Prop :=
  ∀ (i : Instr) (s t : State), i.fieldCommand = true → exec i s = .next t → errField t.status = 0#4 →
    ∀ r ∈ i.dests, t.val r < Config.P

/-- R155 (the spec's own inference): addition and multiplication commute and associate, and have their identities, as commands over registers. -/
def Obligations.FieldLaws : Prop :=
  (∀ (rd ra rb : Reg) (s : State), exec (.f25519Add rd ra rb) s = exec (.f25519Add rd rb ra) s ∧
    exec (.f25519Mult rd ra rb) s = exec (.f25519Mult rd rb ra) s) ∧
  (∀ a b c : Nat, fadd (fadd a b) c = fadd a (fadd b c) ∧ fmul (fmul a b) c = fmul a (fmul b c)) ∧
  (∀ (rd ra rb : Reg) (s : State), s.val ra < Config.P →
    (s.val rb = 0 → ∃ t, exec (.f25519Add rd ra rb) s = .next t ∧ t.val rd = s.val ra) ∧
    (s.val rb = 1 → ∃ t, exec (.f25519Mult rd ra rb) s = .next t ∧ t.val rd = s.val ra) ∧
    (∃ t, exec (.f25519Sub rd ra ra) s = .next t ∧ t.val rd = 0))

/-- R155 and R146 (the spec's own inference): for every nonzero field element z, multiply(z, inv(z)) = 1; and the inverse of 0 is 0. -/
def Obligations.MultiplyByInverseIsOne : Prop :=
  ∀ (s : State) (d c ra : Reg), c ≠ ra → s.val ra < Config.P →
    ∃ s1 s2 : State, exec (.f25519Inv c ra) s = .next s1 ∧ exec (.f25519Mult d ra c) s1 = .next s2 ∧
      (s.val ra ≠ 0 → s2.val d = 1) ∧ (s.val ra = 0 → s1.val c = 0 ∧ s2.val d = 0)

/-! ## The ladder -/

/-- R180: encoding, result and range error of curve25519_ladder; the scalar is never checked. -/
def Obligations.LadderResult : Prop :=
  WordsOf 0x20 (fun _ _ _ => True) .curve25519Ladder ∧
    ∀ (rd ra rb : Reg) (s : State),
      (s.val rb < Config.P → exec (.curve25519Ladder rd ra rb) s = .next
        { s with
          x := s.x.set rd.val (BitVec.ofNat 256
            (fmul (ladderPoints (s.getX ra) (s.val rb)).q0.X
              (fpow (ladderPoints (s.getX ra) (s.val rb)).q0.Z (Config.P - 2)))) rd.isLt
          status := statusOk s.status }) ∧
      (Config.P ≤ s.val rb → exec (.curve25519Ladder rd ra rb) s = .next { s with status := statusRange s.status })

/-- R171 (formulas: the spec's general knowledge G1, G2): the step's two points in closed form over the field of P elements: the doubling and the differential addition of
the Montgomery curve with coefficient 486662. Every coordinate is below P. -/
def Obligations.LadderStepClosedForm : Prop :=
  ∀ (ta td : Point) (u : Nat),
    ((mdaDouble td).X : ZMod Config.P) = ((td.X : ZMod Config.P) ^ 2 - (td.Z : ZMod Config.P) ^ 2) ^ 2 ∧
    ((mdaDouble td).Z : ZMod Config.P) =
      4 * td.X * td.Z * ((td.X : ZMod Config.P) ^ 2 + 486662 * td.X * td.Z + (td.Z : ZMod Config.P) ^ 2) ∧
    ((mdaAdd ta td u).X : ZMod Config.P) = 4 * ((ta.X : ZMod Config.P) * td.X - ta.Z * td.Z) ^ 2 ∧
    ((mdaAdd ta td u).Z : ZMod Config.P) = 4 * u * ((ta.X : ZMod Config.P) * td.Z - ta.Z * td.X) ^ 2 ∧
    (mdaDouble td).X < Config.P ∧ (mdaDouble td).Z < Config.P ∧
    (mdaAdd ta td u).X < Config.P ∧ (mdaAdd ta td u).Z < Config.P

/-- R172 (the spec's own inference): the equivalent form of the doubling's Z with 121666 and BB. -/
def Obligations.DoublingEquivalentForm : Prop :=
  ∀ td : Point,
    (mdaDouble td).Z =
      fmul (fsub (fsq (fadd td.X td.Z)) (fsq (fsub td.X td.Z)))
        (fadd (fsq (fsub td.X td.Z))
          (mulSmall (fsub (fsq (fadd td.X td.Z)) (fsq (fsub td.X td.Z))) 121666))

/-- R175: bits 254 and 255 of the scalar are never read: scalars that agree modulo 2^254 give the same command outcome. -/
def Obligations.LadderIgnoresTopScalarBits : Prop :=
  ∀ (s : State) (rd ra rb : Reg) (a : Operand), ra ≠ rb → ra ≠ rd → a.toNat % 2 ^ 254 = s.val ra % 2 ^ 254 →
    ∃ t t' : State, exec (.curve25519Ladder rd ra rb) s = .next t ∧
      exec (.curve25519Ladder rd ra rb) (s.setX ra a) = .next t' ∧ t' = t.setX ra a

/-- R180, R204: base point 0 gives result 0 with code 0 for every scalar, and so does every ladder that ends with Z0 = 0. -/
def Obligations.DegenerateLadderGivesZero : Prop :=
  ∀ (s : State) (rd ra rb : Reg),
    (s.val rb = 0 ∨ (s.val rb < Config.P ∧ (ladderPoints (s.getX ra) (s.val rb)).q0.Z = 0)) →
    exec (.curve25519Ladder rd ra rb) s = .next
      { s with x := s.x.set rd.val 0#256 rd.isLt, status := statusOk s.status }

/-- R173 (the spec's general knowledge G3): when Td and Ta represent points of the curve whose difference is B or -B, and u is the x-coordinate of B, the step
leaves the double target representing 2 * Td and the add target representing Td + Ta (the curve: log entry 15). The case u = 0, in which the
representation degenerates to (0 : 0), is the statement DegenerateLadderGivesZero. -/
def Obligations.LadderStepDoublesAndAdds : Prop :=
  ∀ [Fact (Nat.Prime Config.P)] (ta td : Point) (u : Nat) (y : ZMod Config.P)
    (h : montgomeryCurve.Nonsingular (u : ZMod Config.P) y) (A D : montgomeryCurve.Point),
    (u : ZMod Config.P) ≠ 0 → represents ta A → represents td D →
    (A - D = WeierstrassCurve.Affine.Point.some _ y h ∨ D - A = WeierstrassCurve.Affine.Point.some _ y h) →
    represents (mdaDouble td) (D + D) ∧ represents (mdaAdd ta td u) (A + D)

/-- R181 (the spec's own inference): after the priming step (i = 254) and after the step for each scalar bit i, the steps for bits 253..i done, pts[0] represents
(k // 2^i) * B and pts[1] represents (k // 2^i + 1) * B, for a point B whose x-coordinate u is not 0. The bits 253..i of a are the
bits 253-i..0 of a shifted right by i. The curve: log entry 15. -/
def Obligations.LadderInvariant : Prop :=
  ∀ [Fact (Nat.Prime Config.P)] (a : Operand) (u : Nat) (y : ZMod Config.P)
    (h : montgomeryCurve.Nonsingular (u : ZMod Config.P) y) (i : Nat), (u : ZMod Config.P) ≠ 0 → i ≤ 254 →
    represents (ladderLoop (a >>> i) u (254 - i) (ladderStep u true (ladderInit u))).q0
      ((effectiveScalar a / 2 ^ i) • WeierstrassCurve.Affine.Point.some _ y h) ∧
    represents (ladderLoop (a >>> i) u (254 - i) (ladderStep u true (ladderInit u))).q1
      ((effectiveScalar a / 2 ^ i + 1) • WeierstrassCurve.Affine.Point.some _ y h)

/-- R175, R180, R181: for a point B of the curve with x-coordinate u, the result is the x-coordinate of k * B for the effective
scalar k, or 0 when k * B is the point at infinity. The group is Mathlib's group of points of the Weierstrass curve
(log entry 15). -/
def Obligations.LadderComputesScalarMultiple : Prop :=
  ∀ [Fact (Nat.Prime Config.P)] (s : State) (rd ra rb : Reg) (y : ZMod Config.P)
    (h : montgomeryCurve.Nonsingular (s.val rb : ZMod Config.P) y), s.val rb < Config.P →
    ∃ t : State, exec (.curve25519Ladder rd ra rb) s = .next t ∧ t.val rd < Config.P ∧
      match effectiveScalar (s.getX ra) • (WeierstrassCurve.Affine.Point.some _ y h) with
      | .zero => t.val rd = 0
      | .some x _ _ => (t.val rd : ZMod Config.P) = x

/-! ## The reference algorithms -/

/-- R102 (the spec's own inference): the digit loop of mpi_add gives the sum's digits and the carry. -/
def Obligations.AddDigitsGiveSum : Prop :=
  ∀ a b : Operand, addDigits (digitsOf 8 a.toNat) (digitsOf 8 b.toNat) 0 =
    (digitsOf 8 ((a.toNat + b.toNat) % 2 ^ 256), (a.toNat + b.toNat) / 2 ^ 256)

/-- R105 (the spec's own inference): the digit loop of mpi_sub_borrow gives the wrapped difference's digits and the borrow. -/
def Obligations.SubDigitsGiveDifference : Prop :=
  ∀ a b : Operand, subDigits (digitsOf 8 a.toNat) (digitsOf 8 b.toNat) 0 =
    (digitsOf 8 (((a.toNat : Int) - (b.toNat : Int)) % 2 ^ 256).toNat, if a.toNat < b.toNat then 1 else 0)

/-- R108: comparing digits from the most significant one down gives the numeric order. -/
def Obligations.CmpDigitsGiveOrder : Prop :=
  ∀ a b : Operand, cmpDigits (digitsOf 8 a.toNat) (digitsOf 8 b.toNat) =
    if a.toNat > b.toNat then 1 else if a.toNat = b.toNat then 0 else -1

/-- R111 (the spec's own inference): the schoolbook loop gives the exact product's 16 digits, and its accumulator never exceeds 2^64 - 1. -/
def Obligations.SchoolbookGivesProduct : Prop :=
  ∀ a b : Operand, mulDigits (digitsOf 8 a.toNat) (digitsOf 8 b.toNat) = digitsOf 16 (a.toNat * b.toNat) ∧
    mulPeak (List.replicate 16 0) (digitsOf 8 a.toNat) (digitsOf 8 b.toNat) ≤ 2 ^ 64 - 1

/-- R132 (the spec's own inference): the final reduction pass gives v mod P for every v below 2^256, after at most two subtractions. -/
def Obligations.FinalReduceIsMod : Prop :=
  ∀ v : Nat, v < 2 ^ 256 → finalReduce v = v % Config.P ∧ ∀ n, 2 ≤ n → subtractP n v = finalReduce v

/-- R137, R140 (the spec's own inferences): f25519_add and f25519_sub by the integer layer and the reduction pass give the field
functions, without carry or borrow and with at most one subtraction of P. -/
def Obligations.AddAndSubByReduction : Prop :=
  ∀ a b : Nat, a < Config.P → b < Config.P →
    (addByReduction a b = fadd a b ∧ a + b < 2 * Config.P - 1 ∧ a + b < 2 ^ 256 ∧ subtractP 1 (a + b) = fadd a b) ∧
    (subByNegation a b = fsub a b ∧ b ≤ Config.P ∧ 1 ≤ Config.P - b ∧ Config.P - b ≤ Config.P ∧
      a + (Config.P - b) < 2 * Config.P ∧ a + (Config.P - b) < 2 ^ 256 ∧ subtractP 1 (a + (Config.P - b)) = fsub a b)

/-- R143, R161 (the spec's own inferences): the products by folding at bit 255 with factor 19 give the field functions, within the
bounds the rules give, and at most one subtraction of P follows. -/
def Obligations.MultByFolding : Prop :=
  ∀ a b : Nat, a < Config.P → b < Config.P →
    (mulByFolding a b = fmul a b ∧ a * b ≤ (Config.P - 1) ^ 2 ∧ a * b < 2 ^ 510 ∧ fold (a * b) < 20 * 2 ^ 255 ∧
      fold (fold (a * b)) ≤ 2 ^ 255 - 1 + 19 * 19 ∧ fold (fold (a * b)) < 2 * Config.P ∧
      subtractP 1 (fold (fold (a * b))) = fmul a b) ∧
    ∀ k : Nat, k < 2 ^ 32 →
      mulSmallByFolding a k = mulSmall a k ∧ a * k < 2 ^ 287 ∧ fold (a * k) < 2 ^ 255 + 19 * 2 ^ 32 ∧
      fold (a * k) < 2 * Config.P

/-! ## The register window -/

/-- R51, R52, R26, R29, R31, R59: what every aligned word of the window reads as. -/
def Obligations.WindowReadsRegisters : Prop :=
  ∀ s : State,
    (∀ (i : Reg) (j : DigitIx), s.memRead (BitVec.ofNat 12 (0x20 * i.val + 4 * j.val)) =
      (s.getX i).extractLsb' (32 * j.val) 32) ∧
    s.memRead 0x200#12 = s.cmdLast ∧
    (∀ k, k < 32 → (s.memRead 0x204#12).getLsbD k = (decide (k < 4 ∨ k = 8) && s.status.getLsbD k)) ∧
    s.memRead 0x208#12 = s.res ∧ s.memRead 0x20C#12 = 0x25510007#32 ∧
    ∀ o : Offset, 0x210 ≤ o.toNat → s.memRead o = 0x00000000#32

/-- R60 (the spec's own inference), R59: an aligned 32-bit host read answers the word at its offset and changes nothing else. -/
def Obligations.HostReadHasNoSideEffect : Prop :=
  ∀ (s : State) (o : Offset) (rest : List HostEvent), s.pending = .access (.read 4 o) :: rest → o.toNat % 4 = 0 →
    step s = .next { s with pending := rest, reply := some (s.memRead o) }

/-- R59: a host read of x{i}.d{j} answers that digit and changes nothing; a host write of v to it sets that digit and leaves every
other digit and every other register unchanged; the same write twice is the same as once. -/
def Obligations.DigitAccess : Prop :=
  (∀ (s : State) (i : Reg) (j : DigitIx) (rest : List HostEvent),
    s.pending = .access (.read 4 (BitVec.ofNat 12 (0x20 * i.val + 4 * j.val))) :: rest →
    step s = .next { s with pending := rest, reply := some ((s.getX i).extractLsb' (32 * j.val) 32) }) ∧
  ∀ (s : State) (i : Reg) (j : DigitIx) (v : Word) (rest : List HostEvent),
    (s.pending = .access (.write 4 (BitVec.ofNat 12 (0x20 * i.val + 4 * j.val)) v) :: rest →
      ∃ t : State, step s = .next t ∧
        (t.getX i).extractLsb' (32 * j.val) 32 = v ∧
        (∀ j' : DigitIx, j' ≠ j → (t.getX i).extractLsb' (32 * j'.val) 32 = (s.getX i).extractLsb' (32 * j'.val) 32) ∧
        (∀ i' : Reg, i' ≠ i → t.getX i' = s.getX i') ∧
        t.res = s.res ∧ t.status = s.status ∧ t.cmdLast = s.cmdLast ∧ t.pending = rest ∧
        step { t with pending := s.pending } = .next t)

/-- R52: a host read of a reserved offset answers 0 and changes nothing; a host write to RES, to ID or to a reserved offset changes
nothing. -/
def Obligations.ReservedAndReadOnlyAccess : Prop :=
  ∀ (s : State) (o : Offset) (v : Word) (rest : List HostEvent), o.toNat % 4 = 0 →
    (0x210 ≤ o.toNat → s.pending = .access (.read 4 o) :: rest →
      step s = .next { s with pending := rest, reply := some 0x00000000#32 }) ∧
    (0x208 ≤ o.toNat → s.pending = .access (.write 4 o v) :: rest →
      step s = .next { s with pending := rest, reply := none })

/-- R29: a host write of w to CMD sets CMD_LAST to w, legal or not, and runs w as one command; a host read of CMD answers CMD_LAST. -/
def Obligations.CmdWriteAndReadBack : Prop :=
  ∀ (s : State) (w : Word) (rest : List HostEvent),
    (s.pending = .access (.write 4 0x200#12 w) :: rest →
      ∃ t : State, step s = .next t ∧ runCommand w { s with pending := rest, reply := none, cmdLast := w } = .next t ∧
        t.cmdLast = w) ∧
    (s.pending = .access (.read 4 0x200#12) :: rest →
      step s = .next { s with pending := rest, reply := some s.cmdLast })

/-- R55: the window is little-endian: byte k of the word at offset o stands at o + k, and window byte 0x20*n + b holds bits
[8b+7:8b] of x[n]. -/
def Obligations.WindowIsLittleEndian : Prop :=
  ∀ s : State,
    (∀ (o : Offset) (k : Nat), o.toNat % 4 = 0 → k < 4 →
      s.windowByte (BitVec.ofNat 12 (o.toNat + k)) = (s.memRead o).extractLsb' (8 * k) 8) ∧
    ∀ (n : Reg) (b : Nat), b < 32 →
      s.windowByte (BitVec.ofNat 12 (0x20 * n.val + b)) = (s.getX n).extractLsb' (8 * b) 8

/-- R56 (the spec's own inference): a register's 32 window bytes are the message of its value, and the eight writes of wrmsg leave the register equal to
the integer the message encodes (R82). -/
def Obligations.MessagesRoundTrip : Prop :=
  (∀ (s : State) (n : Reg),
    messageValue ((List.range 32).map (fun b => s.windowByte (BitVec.ofNat 12 (0x20 * n.val + b)))) = s.val n) ∧
  ∀ (s : State) (n : Reg) (m : List Byte) (rest : List HostEvent), m.length = 32 →
    s.pending = scriptWrmsg n m ++ rest →
    ∃ t : State, core.run 8 s = .next t ∧ t.val n = messageValue m ∧ messageOf (t.getX n) = m ∧
      (∀ r : Reg, r ≠ n → t.getX r = s.getX r) ∧ t.res = s.res ∧ t.status = s.status ∧ t.cmdLast = s.cmdLast ∧
      t.pending = rest

/-! ## Several instances and several masters -/

/-- R212: a step of one instance changes that instance's state only. -/
def Obligations.InstancesShareNothing : Prop :=
  ∀ (p q : Platform) (k : Nat), platformStep k p = some q →
    q.length = p.length ∧ (∀ j, j ≠ k → q[j]? = p[j]?) ∧
    ∃ m t, p[k]? = some m ∧ step m.block = .next t ∧ q[k]? = some { m with block := t }

/-- R241, R61: two masters that write digits of different registers get the same registers in every interleaving of their
accesses, since each access is atomic. -/
def Obligations.DisjointMastersCommute : Prop :=
  ∀ (s : State) (l1 l2 : List (Reg × DigitIx × Word)) (cs : List HostEvent),
    (∀ e1 ∈ l1, ∀ e2 ∈ l2, e1.1 ≠ e2.1) → Interleaving (digitWrites l1) (digitWrites l2) cs →
    ∃ t t' : State, core.run (l1.length + l2.length) { s with pending := cs } = .next t ∧
      core.run (l1.length + l2.length) { s with pending := digitWrites l1 ++ digitWrites l2 } = .next t' ∧ t = t'
end

