-- ==== Sys2Proof/Laws/Decode.lean ====
section
/-! SUPPORT. The fields of an encoded command word, and a command word from its fields (spec/30_encoding.md R70, R71). -/

namespace Sys2Proof

theorem opField_toNat (w : Word) : (opField w).toNat = w.toNat % 2 ^ 8 := by simp [opField]

theorem rdField_val (w : Word) : (rdField w).val = w.toNat / 2 ^ 8 % 2 ^ 4 := by
  simp [rdField, Nat.shiftRight_eq_div_pow]

theorem raField_val (w : Word) : (raField w).val = w.toNat / 2 ^ 12 % 2 ^ 4 := by
  simp [raField, Nat.shiftRight_eq_div_pow]

theorem rbField_val (w : Word) : (rbField w).val = w.toNat / 2 ^ 16 % 2 ^ 4 := by
  simp [rbField, Nat.shiftRight_eq_div_pow]

theorem rsvField_toNat (w : Word) : (rsvField w).toNat = w.toNat / 2 ^ 20 := by
  have := w.isLt
  simp [rsvField, Nat.shiftRight_eq_div_pow]
  omega

/-- The word of R80: (B << 16) | (A << 12) | (D << 8) | OP. -/
theorem commandWord_toNat (op : BitVec 8) (rd ra rb : Reg) :
    (commandWord op rd ra rb).toNat = rb.val * 2 ^ 16 + ra.val * 2 ^ 12 + rd.val * 2 ^ 8 + op.toNat := by
  have h1 := op.isLt
  have h2 := rd.isLt
  have h3 := ra.isLt
  have h4 := rb.isLt
  have hd : (regBits rd).toNat = rd.val := rfl
  have ha : (regBits ra).toNat = ra.val := rfl
  have hb : (regBits rb).toNat = rb.val := rfl
  unfold commandWord
  rw [BitVec.toNat_append, BitVec.toNat_append, BitVec.toNat_append, BitVec.toNat_append, hd, ha, hb]
  simp only [BitVec.toNat_ofNat, Nat.zero_mod, Nat.zero_shiftLeft, Nat.zero_or]
  rw [← Nat.shiftLeft_add_eq_or_of_lt h1, ← Nat.shiftLeft_add_eq_or_of_lt h2, ← Nat.shiftLeft_add_eq_or_of_lt h3]
  simp only [Nat.shiftLeft_eq]
  omega

@[simp] theorem opField_commandWord (op : BitVec 8) (rd ra rb : Reg) : opField (commandWord op rd ra rb) = op := by
  have h1 := op.isLt
  apply BitVec.eq_of_toNat_eq
  rw [opField_toNat, commandWord_toNat]
  omega

@[simp] theorem rdField_commandWord (op : BitVec 8) (rd ra rb : Reg) : rdField (commandWord op rd ra rb) = rd := by
  have h1 := op.isLt
  have h2 := rd.isLt
  apply Fin.ext
  rw [rdField_val, commandWord_toNat]
  omega

@[simp] theorem raField_commandWord (op : BitVec 8) (rd ra rb : Reg) : raField (commandWord op rd ra rb) = ra := by
  have h1 := op.isLt
  have h2 := rd.isLt
  have h3 := ra.isLt
  apply Fin.ext
  rw [raField_val, commandWord_toNat]
  omega

@[simp] theorem rbField_commandWord (op : BitVec 8) (rd ra rb : Reg) : rbField (commandWord op rd ra rb) = rb := by
  have h1 := op.isLt
  have h2 := rd.isLt
  have h3 := ra.isLt
  have h4 := rb.isLt
  apply Fin.ext
  rw [rbField_val, commandWord_toNat]
  omega

@[simp] theorem rsvField_commandWord (op : BitVec 8) (rd ra rb : Reg) : rsvField (commandWord op rd ra rb) = 0#12 := by
  have h1 := op.isLt
  have h2 := rd.isLt
  have h3 := ra.isLt
  have h4 := rb.isLt
  apply BitVec.eq_of_toNat_eq
  rw [rsvField_toNat, commandWord_toNat]
  simp
  omega

/-- A word with RSV = 0 is the command word of its own fields. -/
theorem commandWord_fields (w : Word) (h : rsvField w = 0#12) :
    commandWord (opField w) (rdField w) (raField w) (rbField w) = w := by
  have h0 : w.toNat / 2 ^ 20 = 0 := by rw [← rsvField_toNat, h]; rfl
  apply BitVec.eq_of_toNat_eq
  rw [commandWord_toNat, opField_toNat, rdField_val, raField_val, rbField_val]
  omega

end Sys2Proof
end

