-- ==== Sys2Proof/Laws/Field.lean ====
section
/-! SUPPORT. The small facts of the field functions (spec/00_scope.md R13): every one of them answers a value below P, and each
is the operation of the ring of residues modulo P. -/

namespace Sys2Proof.Machine

open Sys2Proof.Config (P)

theorem P_pos : 0 < P := by decide

/-- P in the form linear arithmetic can use. -/
theorem P_eq : P = 2 ^ 255 - 19 := rfl

theorem P_lt : P < 2 ^ 256 := by decide

/-- Two subtractions of P reduce any 256-bit value (R132). -/
theorem lt_three_P : 2 ^ 256 < 3 * P := by decide

theorem fadd_lt (u v : Nat) : fadd u v < P := Nat.mod_lt _ P_pos
theorem fsub_lt (u v : Nat) : fsub u v < P := Nat.mod_lt _ P_pos
theorem fmul_lt (u v : Nat) : fmul u v < P := Nat.mod_lt _ P_pos
theorem fsq_lt (u : Nat) : fsq u < P := Nat.mod_lt _ P_pos
theorem fpow_lt (u e : Nat) : fpow u e < P := Nat.mod_lt _ P_pos
theorem mulSmall_lt (a k : Nat) : mulSmall a k < P := Nat.mod_lt _ P_pos
theorem invChain_lt (z : Nat) : invChain z < P := Nat.mod_lt _ P_pos
theorem ladder_lt (a : Operand) (u : Nat) : ladder a u < P := Nat.mod_lt _ P_pos

theorem fadd_comm (u v : Nat) : fadd u v = fadd v u := by simp [fadd, Nat.add_comm]
theorem fmul_comm (u v : Nat) : fmul u v = fmul v u := by simp [fmul, Nat.mul_comm]

@[simp] theorem cast_fadd (u v : Nat) : (fadd u v : ZMod P) = u + v := by simp [fadd]
@[simp] theorem cast_fmul (u v : Nat) : (fmul u v : ZMod P) = u * v := by simp [fmul]
@[simp] theorem cast_fsq (u : Nat) : (fsq u : ZMod P) = u ^ 2 := by simp [fsq, pow_two]
@[simp] theorem cast_fpow (u e : Nat) : (fpow u e : ZMod P) = u ^ e := by simp [fpow]
@[simp] theorem cast_mulSmall (a k : Nat) : (mulSmall a k : ZMod P) = a * k := by simp [mulSmall]

@[simp] theorem cast_fsub (u v : Nat) : (fsub u v : ZMod P) = u - v := by
  have h : v % P ≤ P := (Nat.mod_lt _ P_pos).le
  simp [fsub, Nat.cast_sub h, sub_eq_add_neg]

/-- Two numbers below P with the same residue are equal. -/
theorem eq_of_cast_eq {m n : Nat} (hm : m < P) (hn : n < P) (h : (m : ZMod P) = n) : m = n := by
  have := (ZMod.natCast_eq_natCast_iff' m n P).1 h
  rwa [Nat.mod_eq_of_lt hm, Nat.mod_eq_of_lt hn] at this

/-- fsub is the non-negative remainder of the integer difference (R9, R13). -/
theorem fsub_eq_emod (u v : Nat) : (fsub u v : Int) = ((u : Int) - v) % P := by
  have h : v % P ≤ P := (Nat.mod_lt _ P_pos).le
  unfold fsub
  push_cast [Nat.cast_sub h]
  rw [show (u : Int) + (P - (v : Int) % P) = (u - (v : Int) % P) + P from by ring, Int.add_emod_right,
    Int.sub_emod, Int.emod_emod_of_dvd _ (dvd_refl _), ← Int.sub_emod]

end Sys2Proof.Machine
end

