-- ==== Sys2Proof/Laws/Flags.lean ====
section
/-! SUPPORT. What the STATUS updates do to ERR, to SERR and to the other bits, and that they and the RES values stay legal
(spec/10_state.md R24 to R28). -/

namespace Sys2Proof.Machine

@[simp] theorem errField_statusAfter (c : ErrorCode) (st : Word) : errField (statusAfter c st) = c.bits := by
  unfold errField statusAfter
  ext i hi
  have : i = 0 ∨ i = 1 ∨ i = 2 ∨ i = 3 := by omega
  cases c <;> rcases this with rfl | rfl | rfl | rfl <;> simp [ErrorCode.bits]

theorem serrField_statusAfter (c : ErrorCode) (st : Word) :
    serrField (statusAfter c st) = (serrField st || decide (c ≠ .ok)) := by
  unfold serrField statusAfter
  cases c <;> simp [ErrorCode.bits]

/-- A command leaves every bit of STATUS but ERR and SERR as it was. -/
theorem getLsbD_statusAfter (c : ErrorCode) (st : Word) (k : Nat) (h4 : 4 ≤ k) (h8 : k ≠ 8) :
    (statusAfter c st).getLsbD k = st.getLsbD k := by
  unfold statusAfter
  by_cases hk : k < 32
  · interval_cases k <;> first | omega | (cases c <;> simp [ErrorCode.bits])
  · rw [BitVec.getLsbD_of_ge _ _ (by omega), BitVec.getLsbD_of_ge _ _ (by omega)]

theorem statusAfter_ok (st : Word) : statusAfter .ok st = statusOk st := by
  simp [statusAfter, statusOk, ErrorCode.bits]

theorem statusAfter_range (st : Word) : statusAfter .range st = statusRange st := by
  simp [statusAfter, statusRange, ErrorCode.bits]

theorem statusAfter_illegal (st : Word) : statusAfter .illegal st = statusIllegal st := by
  simp [statusAfter, statusIllegal, ErrorCode.bits]

/-- Every code but OK is nonzero. -/
theorem bits_eq_zero_iff (c : ErrorCode) : c.bits = 0#4 ↔ c = .ok := by cases c <;> decide

theorem resLegal_carryWord (a b : Operand) : resLegal (carryWord (a.toNat + b.toNat)) = true := by
  have ha := a.isLt
  have hb := b.isLt
  have h : (a.toNat + b.toNat) / 2 ^ 256 = 0 ∨ (a.toNat + b.toNat) / 2 ^ 256 = 1 := by omega
  unfold carryWord
  rcases h with h | h <;> rw [h] <;> decide

theorem resLegal_borrowWord (a b : Nat) : resLegal (borrowWord a b) = true := by
  unfold borrowWord; split <;> decide

theorem resLegal_compareWord (a b : Nat) : resLegal (compareWord a b) = true := by
  unfold compareWord; split
  · decide
  · split <;> decide

end Sys2Proof.Machine
end

