-- ==== Sys2Proof/Laws/State.lean ====
section
/-! SUPPORT. One lemma per field of State and per update of Machine/Ops.lean, so that no proof unfolds a record update; and reading
an operand register after a write to one. -/

namespace Sys2Proof.Machine

@[simp] theorem State.setX_x (s : State) (r : Reg) (v : Operand) : (s.setX r v).x = s.x.set r.val v r.isLt := rfl
@[simp] theorem State.setX_res (s : State) (r : Reg) (v : Operand) : (s.setX r v).res = s.res := rfl
@[simp] theorem State.setX_status (s : State) (r : Reg) (v : Operand) : (s.setX r v).status = s.status := rfl
@[simp] theorem State.setX_cmdLast (s : State) (r : Reg) (v : Operand) : (s.setX r v).cmdLast = s.cmdLast := rfl
@[simp] theorem State.setX_pending (s : State) (r : Reg) (v : Operand) : (s.setX r v).pending = s.pending := rfl
@[simp] theorem State.setX_reply (s : State) (r : Reg) (v : Operand) : (s.setX r v).reply = s.reply := rfl
@[simp] theorem State.setX_draws (s : State) (r : Reg) (v : Operand) : (s.setX r v).draws = s.draws := rfl

@[simp] theorem State.setNat_x (s : State) (r : Reg) (n : Nat) :
    (s.setNat r n).x = s.x.set r.val (BitVec.ofNat 256 n) r.isLt := rfl
@[simp] theorem State.setNat_res (s : State) (r : Reg) (n : Nat) : (s.setNat r n).res = s.res := rfl
@[simp] theorem State.setNat_status (s : State) (r : Reg) (n : Nat) : (s.setNat r n).status = s.status := rfl
@[simp] theorem State.setNat_cmdLast (s : State) (r : Reg) (n : Nat) : (s.setNat r n).cmdLast = s.cmdLast := rfl
@[simp] theorem State.setNat_pending (s : State) (r : Reg) (n : Nat) : (s.setNat r n).pending = s.pending := rfl
@[simp] theorem State.setNat_reply (s : State) (r : Reg) (n : Nat) : (s.setNat r n).reply = s.reply := rfl
@[simp] theorem State.setNat_draws (s : State) (r : Reg) (n : Nat) : (s.setNat r n).draws = s.draws := rfl

@[simp] theorem State.setPair_x (s : State) (r : Reg) (p : Nat) :
    (s.setPair r p).x = (s.x.set r.val (BitVec.ofNat 256 (p % 2 ^ 256)) r.isLt).set (pairHigh r).val (BitVec.ofNat 256 (p / 2 ^ 256)) (pairHigh r).isLt := rfl
@[simp] theorem State.setPair_res (s : State) (r : Reg) (p : Nat) : (s.setPair r p).res = s.res := rfl
@[simp] theorem State.setPair_status (s : State) (r : Reg) (p : Nat) : (s.setPair r p).status = s.status := rfl
@[simp] theorem State.setPair_cmdLast (s : State) (r : Reg) (p : Nat) : (s.setPair r p).cmdLast = s.cmdLast := rfl
@[simp] theorem State.setPair_pending (s : State) (r : Reg) (p : Nat) : (s.setPair r p).pending = s.pending := rfl
@[simp] theorem State.setPair_reply (s : State) (r : Reg) (p : Nat) : (s.setPair r p).reply = s.reply := rfl
@[simp] theorem State.setPair_draws (s : State) (r : Reg) (p : Nat) : (s.setPair r p).draws = s.draws := rfl

@[simp] theorem State.setRes_x (s : State) (w : Word) : (s.setRes w).x = s.x := rfl
@[simp] theorem State.setRes_res (s : State) (w : Word) : (s.setRes w).res = w := rfl
@[simp] theorem State.setRes_status (s : State) (w : Word) : (s.setRes w).status = s.status := rfl
@[simp] theorem State.setRes_cmdLast (s : State) (w : Word) : (s.setRes w).cmdLast = s.cmdLast := rfl
@[simp] theorem State.setRes_pending (s : State) (w : Word) : (s.setRes w).pending = s.pending := rfl
@[simp] theorem State.setRes_reply (s : State) (w : Word) : (s.setRes w).reply = s.reply := rfl
@[simp] theorem State.setRes_draws (s : State) (w : Word) : (s.setRes w).draws = s.draws := rfl

@[simp] theorem State.endCommand_x (s : State) (c : ErrorCode) : (s.endCommand c).x = s.x := rfl
@[simp] theorem State.endCommand_res (s : State) (c : ErrorCode) : (s.endCommand c).res = s.res := rfl
@[simp] theorem State.endCommand_status (s : State) (c : ErrorCode) : (s.endCommand c).status = statusAfter c s.status := rfl
@[simp] theorem State.endCommand_cmdLast (s : State) (c : ErrorCode) : (s.endCommand c).cmdLast = s.cmdLast := rfl
@[simp] theorem State.endCommand_pending (s : State) (c : ErrorCode) : (s.endCommand c).pending = s.pending := rfl
@[simp] theorem State.endCommand_reply (s : State) (c : ErrorCode) : (s.endCommand c).reply = s.reply := rfl
@[simp] theorem State.endCommand_draws (s : State) (c : ErrorCode) : (s.endCommand c).draws = s.draws := rfl

@[simp] theorem State.complete_x (s : State) : s.complete.x = s.x := rfl
@[simp] theorem State.complete_res (s : State) : s.complete.res = s.res := rfl
@[simp] theorem State.complete_status (s : State) : s.complete.status = statusAfter .ok s.status := rfl
@[simp] theorem State.complete_cmdLast (s : State) : s.complete.cmdLast = s.cmdLast := rfl
@[simp] theorem State.complete_pending (s : State) : s.complete.pending = s.pending := rfl
@[simp] theorem State.complete_reply (s : State) : s.complete.reply = s.reply := rfl
@[simp] theorem State.complete_draws (s : State) : s.complete.draws = s.draws := rfl

@[simp] theorem State.raise_x (s : State) (c : ErrorCode) : (s.raise c).x = s.x := rfl
@[simp] theorem State.raise_res (s : State) (c : ErrorCode) : (s.raise c).res = s.res := rfl
@[simp] theorem State.raise_status (s : State) (c : ErrorCode) : (s.raise c).status = statusAfter c s.status := rfl
@[simp] theorem State.raise_cmdLast (s : State) (c : ErrorCode) : (s.raise c).cmdLast = s.cmdLast := rfl
@[simp] theorem State.raise_pending (s : State) (c : ErrorCode) : (s.raise c).pending = s.pending := rfl
@[simp] theorem State.raise_reply (s : State) (c : ErrorCode) : (s.raise c).reply = s.reply := rfl
@[simp] theorem State.raise_draws (s : State) (c : ErrorCode) : (s.raise c).draws = s.draws := rfl

@[simp] theorem State.applyReset_x (s : State) : s.applyReset.x = Vector.replicate 16 0#256 := rfl
@[simp] theorem State.applyReset_res (s : State) : s.applyReset.res = 0#32 := rfl
@[simp] theorem State.applyReset_status (s : State) : s.applyReset.status = 0#32 := rfl
@[simp] theorem State.applyReset_cmdLast (s : State) : s.applyReset.cmdLast = 0#32 := rfl
@[simp] theorem State.applyReset_pending (s : State) : s.applyReset.pending = s.pending := rfl
@[simp] theorem State.applyReset_reply (s : State) : s.applyReset.reply = none := rfl
@[simp] theorem State.applyReset_draws (s : State) : s.applyReset.draws = s.draws := rfl

@[simp] theorem State.getX_setX_self (s : State) (r : Reg) (v : Operand) : (s.setX r v).getX r = v := by
  simp [State.getX]

theorem State.getX_setX_of_ne (s : State) (r q : Reg) (v : Operand) (h : q ≠ r) : (s.setX r v).getX q = s.getX q := by
  have h' : r.val ≠ q.val := fun e => h (Fin.ext e.symm)
  simp [State.getX, h']

@[simp] theorem State.getX_setNat_self (s : State) (r : Reg) (n : Nat) : (s.setNat r n).getX r = BitVec.ofNat 256 n :=
  s.getX_setX_self r _

theorem State.getX_setNat_of_ne (s : State) (r q : Reg) (n : Nat) (h : q ≠ r) : (s.setNat r n).getX q = s.getX q :=
  s.getX_setX_of_ne r q _ h

/-- A register written with an integer below 2^256 reads as that integer. -/
theorem State.val_setNat_self (s : State) (r : Reg) (n : Nat) (h : n < 2 ^ 256) : (s.setNat r n).val r = n := by
  rw [State.val, s.getX_setNat_self, BitVec.toNat_ofNat, Nat.mod_eq_of_lt h]

theorem State.val_setNat_of_ne (s : State) (r q : Reg) (n : Nat) (h : q ≠ r) : (s.setNat r n).val q = s.val q := by
  simp [State.val, s.getX_setNat_of_ne r q n h]

/-- Reading a register depends on the operand registers only. -/
theorem State.getX_congr {s t : State} (h : t.x = s.x) (r : Reg) : t.getX r = s.getX r := by
  simp [State.getX, h]

/-- A register's value is below 2^256 (R20). -/
theorem State.val_lt (s : State) (r : Reg) : s.val r < 2 ^ 256 := (s.getX r).isLt

end Sys2Proof.Machine
end

