-- ==== Sys2Proof/Laws/Exec.lean ====
section
/-! SUPPORT. What a command can do, said once: the answers of the shared operand forms of Machine/Operands.lean, and the three ways
any command ends (spec/60_exceptions.md R201, R202). -/

namespace Sys2Proof.Machine

open Sys2Proof.Config (P)

theorem isField_eq_true {v : Nat} : isField v = true ↔ v < P := by simp [isField]

theorem isField_eq_false {v : Nat} : isField v = false ↔ P ≤ v := by simp [isField]

/-- A form with one checked source: with the source below P it writes the result and ends with code 0. -/
theorem fieldUnary_of_lt {rd ra : Reg} {f : Nat → Nat} {s : State} (h : s.val ra < P) :
    fieldUnary rd ra f s = .next (s.setNat rd (f (s.val ra))).complete := by
  simp [fieldUnary, isField_eq_true.2 h]

/-- A form with one checked source: with the source not below P it ends with E_RANGE. -/
theorem fieldUnary_of_le {rd ra : Reg} {f : Nat → Nat} {s : State} (h : P ≤ s.val ra) :
    fieldUnary rd ra f s = .next (s.raise .range) := by
  simp [fieldUnary, isField_eq_false.2 h]

theorem fieldBinary_of_lt {rd ra rb : Reg} {f : Nat → Nat → Nat} {s : State} (ha : s.val ra < P) (hb : s.val rb < P) :
    fieldBinary rd ra rb f s = .next (s.setNat rd (f (s.val ra) (s.val rb))).complete := by
  simp [fieldBinary, isField_eq_true.2 ha, isField_eq_true.2 hb]

theorem fieldBinary_of_le {rd ra rb : Reg} {f : Nat → Nat → Nat} {s : State} (h : P ≤ s.val ra ∨ P ≤ s.val rb) :
    fieldBinary rd ra rb f s = .next (s.raise .range) := by
  rcases h with h | h <;> simp [fieldBinary, isField_eq_false.2 h]

theorem scalarFieldOp_of_lt {rd ra rb : Reg} {f : Operand → Nat → Nat} {s : State} (h : s.val rb < P) :
    scalarFieldOp rd ra rb f s = .next (s.setNat rd (f (s.getX ra) (s.val rb))).complete := by
  simp [scalarFieldOp, isField_eq_true.2 h]

theorem scalarFieldOp_of_le {rd ra rb : Reg} {f : Operand → Nat → Nat} {s : State} (h : P ≤ s.val rb) :
    scalarFieldOp rd ra rb f s = .next (s.raise .range) := by
  simp [scalarFieldOp, isField_eq_false.2 h]

/-- How a command ended. -/
inductive Ending (i : Instr) (s : State) : State → Prop where
  /-- the form has no legal word: E_ILLEGAL, nothing else (R77, R202) -/
  | illegal (h : i.wellFormed = false) : Ending i s (s.raise .illegal)
  /-- a checked source is not below P: E_RANGE, nothing else (R131, R202) -/
  | range (hw : i.wellFormed = true) (r : Reg) (h : r ∈ i.checked) (hr : P ≤ s.val r) : Ending i s (s.raise .range)
  /-- success: destination registers and RES written, code 0 -/
  | done (t : State) (hw : i.wellFormed = true) (hc : ∀ r ∈ i.checked, s.val r < P)
      (hx : ∀ r, r ∉ i.dests → t.getX r = s.getX r)
      (hres : i.writesRes = false → t.res = s.res) (hlegal : i.writesRes = true → resLegal t.res = true)
      (hst : t.status = s.status) (hcmd : t.cmdLast = s.cmdLast) (hpend : t.pending = s.pending)
      (hrep : t.reply = s.reply) (hdr : t.draws = s.draws)
      (hf : i.fieldCommand = true → ∀ r ∈ i.dests, t.val r < P) : Ending i s t.complete

/-- A state that differs in one register is a successful ending of a field command with that destination. -/
theorem Ending.ofSetNat {i : Instr} {s : State} (rd : Reg) (n : Nat) (hw : i.wellFormed = true)
    (hc : ∀ r ∈ i.checked, s.val r < P) (hd : i.dests = [rd]) (hres : i.writesRes = false) (hn : n < P) :
    Ending i s (s.setNat rd n).complete := by
  refine Ending.done _ hw hc (fun r hr => ?_) (fun _ => rfl) (fun h => ?_) rfl rfl rfl rfl rfl (fun _ r hr => ?_)
  · rw [hd, List.mem_singleton] at hr
    exact s.getX_setNat_of_ne rd r n hr
  · rw [hres] at h; cases h
  · rw [hd, List.mem_singleton] at hr
    subst hr
    rw [s.val_setNat_self r n (lt_trans hn P_lt)]
    exact hn

/-- Every command answers a next state, in one of the three ways. -/
theorem exec_ending (i : Instr) (s : State) : ∃ t, exec i s = .next t ∧ Ending i s t := by
  cases i with
  | mpiAdd rd ra rb =>
    refine ⟨_, rfl, Ending.done _ rfl (by simp [Instr.checked]) (fun r hr => ?_) (fun h => by cases h)
      (fun _ => resLegal_carryWord (s.getX ra) (s.getX rb)) rfl rfl rfl rfl rfl (fun h => by cases h)⟩
    exact s.getX_setNat_of_ne rd r _ (by simpa [Instr.dests] using hr)
  | mpiSubBorrow rd ra rb =>
    refine ⟨_, rfl, Ending.done _ rfl (by simp [Instr.checked]) (fun r hr => ?_) (fun h => by cases h)
      (fun _ => resLegal_borrowWord _ _) rfl rfl rfl rfl rfl (fun h => by cases h)⟩
    exact s.getX_setNat_of_ne rd r _ (by simpa [Instr.dests] using hr)
  | mpiCmp ra rb =>
    exact ⟨_, rfl, Ending.done _ rfl (by simp [Instr.checked]) (fun r hr => rfl) (fun h => by cases h)
      (fun _ => resLegal_compareWord _ _) rfl rfl rfl rfl rfl (fun h => by cases h)⟩
  | mpiWideningMult rd ra rb =>
    by_cases h : evenPair rd = true
    · refine ⟨(s.setPair rd (s.val ra * s.val rb)).complete, by simp [exec, execMpiWideningMult, h],
        Ending.done _ h (by simp [Instr.checked]) (fun r hr => ?_) (fun _ => rfl) (fun h => by cases h)
        rfl rfl rfl rfl rfl (fun h => by cases h)⟩
      simp only [Instr.dests, List.mem_cons, List.not_mem_nil, or_false, not_or] at hr
      rw [State.setPair, State.getX_setNat_of_ne _ _ _ _ hr.2, State.getX_setNat_of_ne _ _ _ _ hr.1]
    · exact ⟨s.raise .illegal, by simp [exec, execMpiWideningMult, h], Ending.illegal (by simpa [Instr.wellFormed] using h)⟩
  | f25519Reduce rd ra =>
    exact ⟨_, rfl, Ending.ofSetNat rd _ rfl (by simp [Instr.checked]) rfl rfl (Nat.mod_lt _ P_pos)⟩
  | f25519Add rd ra rb =>
    by_cases h : s.val ra < P ∧ s.val rb < P
    · exact ⟨_, fieldBinary_of_lt h.1 h.2, Ending.ofSetNat rd _ rfl (by simpa [Instr.checked] using h) rfl rfl (fadd_lt _ _)⟩
    · have h' : P ≤ s.val ra ∨ P ≤ s.val rb := by omega
      refine ⟨_, fieldBinary_of_le h', ?_⟩
      rcases h' with h' | h'
      · exact Ending.range rfl ra (by simp [Instr.checked]) h'
      · exact Ending.range rfl rb (by simp [Instr.checked]) h'
  | f25519Sub rd ra rb =>
    by_cases h : s.val ra < P ∧ s.val rb < P
    · exact ⟨_, fieldBinary_of_lt h.1 h.2, Ending.ofSetNat rd _ rfl (by simpa [Instr.checked] using h) rfl rfl (fsub_lt _ _)⟩
    · have h' : P ≤ s.val ra ∨ P ≤ s.val rb := by omega
      refine ⟨_, fieldBinary_of_le h', ?_⟩
      rcases h' with h' | h'
      · exact Ending.range rfl ra (by simp [Instr.checked]) h'
      · exact Ending.range rfl rb (by simp [Instr.checked]) h'
  | f25519Mult rd ra rb =>
    by_cases h : s.val ra < P ∧ s.val rb < P
    · exact ⟨_, fieldBinary_of_lt h.1 h.2, Ending.ofSetNat rd _ rfl (by simpa [Instr.checked] using h) rfl rfl (fmul_lt _ _)⟩
    · have h' : P ≤ s.val ra ∨ P ≤ s.val rb := by omega
      refine ⟨_, fieldBinary_of_le h', ?_⟩
      rcases h' with h' | h'
      · exact Ending.range rfl ra (by simp [Instr.checked]) h'
      · exact Ending.range rfl rb (by simp [Instr.checked]) h'
  | f25519Inv rd ra =>
    by_cases h : s.val ra < P
    · exact ⟨_, fieldUnary_of_lt h, Ending.ofSetNat rd _ rfl (by simpa [Instr.checked] using h) rfl rfl (invChain_lt _)⟩
    · exact ⟨_, fieldUnary_of_le (not_lt.1 h), Ending.range rfl ra (by simp [Instr.checked]) (not_lt.1 h)⟩
  | f25519Serialize rd ra =>
    by_cases h : s.val ra < P
    · exact ⟨_, fieldUnary_of_lt (f := fun v => v) h,
        Ending.ofSetNat rd _ rfl (by simpa [Instr.checked] using h) rfl rfl h⟩
    · exact ⟨_, fieldUnary_of_le (rd := rd) (f := fun v => v) (not_lt.1 h),
        Ending.range rfl ra (by simp [Instr.checked]) (not_lt.1 h)⟩
  | f25519Deserialize rd ra =>
    by_cases h : s.val ra < P
    · exact ⟨_, fieldUnary_of_lt (f := fun v => v) h,
        Ending.ofSetNat rd _ rfl (by simpa [Instr.checked] using h) rfl rfl h⟩
    · exact ⟨_, fieldUnary_of_le (rd := rd) (f := fun v => v) (not_lt.1 h),
        Ending.range rfl ra (by simp [Instr.checked]) (not_lt.1 h)⟩
  | curve25519Ladder rd ra rb =>
    by_cases h : s.val rb < P
    · exact ⟨_, scalarFieldOp_of_lt h, Ending.ofSetNat rd _ rfl (by simpa [Instr.checked] using h) rfl rfl (ladder_lt _ _)⟩
    · exact ⟨_, scalarFieldOp_of_le (not_lt.1 h), Ending.range rfl rb (by simp [Instr.checked]) (not_lt.1 h)⟩

/-- What exec answers is one of the three endings. -/
theorem ending_of_exec {i : Instr} {s t : State} (h : exec i s = .next t) : Ending i s t := by
  obtain ⟨u, hu, he⟩ := exec_ending i s
  rw [h] at hu
  cases hu
  exact he

end Sys2Proof.Machine
end

