-- ==== Sys2Proof/Laws/PerInstr.lean ====
section
/-! SUPPORT. A family of facts with one lemma per constructor of Instr: the command word of a well-formed command fits the row of
spec/opcode_table.json that has its mnemonic (spec/30_encoding.md R76). -/

namespace Sys2Proof.Laws.OpcodeRow

/-- The word of a well-formed command fits a row of the table that has the command's mnemonic. -/
def Statement (i : Instr) : Prop :=
  i.wellFormed = true → ∃ r ∈ opcodeTable, r.fits (encode i) = true ∧ r.mnemonic = i.mnemonic

/-- A command word under a mask that keeps the whole of OP. -/
theorem commandWord_and (op : BitVec 8) (rd ra rb : Reg) (m0 : BitVec 12) (mb ma md : BitVec 4) :
    commandWord op rd ra rb &&& (m0 ++ mb ++ ma ++ md ++ 0xFF#8) =
      0#12 ++ (regBits rb &&& mb) ++ (regBits ra &&& ma) ++ (regBits rd &&& md) ++ op := by
  have h : op &&& 0xFF#8 = op := BitVec.and_allOnes
  rw [commandWord, BitVec.and_append, BitVec.and_append, BitVec.and_append, BitVec.and_append, h, BitVec.zero_and]

/-- The mask 0xFFF000FF of the rows with three operands. -/
theorem and_mask_dab (op : BitVec 8) (rd ra rb : Reg) :
    commandWord op rd ra rb &&& 0xFFF000FF#32 = 0#12 ++ 0#4 ++ 0#4 ++ 0#4 ++ op := by
  have h := commandWord_and op rd ra rb 0xFFF#12 0#4 0#4 0#4
  rwa [BitVec.and_zero, BitVec.and_zero, BitVec.and_zero] at h

/-- The mask 0xFFFF00FF of the rows whose RB is 0. -/
theorem and_mask_da (op : BitVec 8) (rd ra : Reg) :
    commandWord op rd ra 0 &&& 0xFFFF00FF#32 = 0#12 ++ 0#4 ++ 0#4 ++ 0#4 ++ op := by
  have h := commandWord_and op rd ra 0 0xFFF#12 0xF#4 0#4 0#4
  rwa [BitVec.and_zero, BitVec.and_zero] at h

/-- The mask 0xFFF00FFF of the row whose RD is 0. -/
theorem and_mask_ab (op : BitVec 8) (ra rb : Reg) :
    commandWord op 0 ra rb &&& 0xFFF00FFF#32 = 0#12 ++ 0#4 ++ 0#4 ++ 0#4 ++ op := by
  have h := commandWord_and op 0 ra rb 0xFFF#12 0#4 0#4 0xF#4
  rwa [BitVec.and_zero, BitVec.and_zero] at h

theorem regBits_even : ∀ rd : Reg, evenPair rd = true → regBits rd &&& 1#4 = 0#4 := by decide

/-- The mask 0xFFF001FF of the row whose RD is even. -/
theorem and_mask_pair (op : BitVec 8) (rd ra rb : Reg) (h : evenPair rd = true) :
    commandWord op rd ra rb &&& 0xFFF001FF#32 = 0#12 ++ 0#4 ++ 0#4 ++ 0#4 ++ op := by
  have h' := commandWord_and op rd ra rb 0xFFF#12 0#4 0#4 1#4
  rwa [BitVec.and_zero, BitVec.and_zero, regBits_even rd h] at h'

theorem mpiAdd (rd ra rb : Reg) : Statement (.mpiAdd rd ra rb) :=
  fun _ => ⟨⟨"mpi_add", 0x00000001#32, 0xFFF000FF#32⟩, by simp [opcodeTable],
    beq_iff_eq.2 (and_mask_dab _ rd ra rb), rfl⟩

theorem mpiSubBorrow (rd ra rb : Reg) : Statement (.mpiSubBorrow rd ra rb) :=
  fun _ => ⟨⟨"mpi_sub_borrow", 0x00000002#32, 0xFFF000FF#32⟩, by simp [opcodeTable],
    beq_iff_eq.2 (and_mask_dab _ rd ra rb), rfl⟩

theorem mpiCmp (ra rb : Reg) : Statement (.mpiCmp ra rb) :=
  fun _ => ⟨⟨"mpi_cmp", 0x00000003#32, 0xFFF00FFF#32⟩, by simp [opcodeTable],
    beq_iff_eq.2 (and_mask_ab _ ra rb), rfl⟩

theorem mpiWideningMult (rd ra rb : Reg) : Statement (.mpiWideningMult rd ra rb) :=
  fun h => ⟨⟨"mpi_widening_mult", 0x00000004#32, 0xFFF001FF#32⟩, by simp [opcodeTable],
    beq_iff_eq.2 (and_mask_pair _ rd ra rb h), rfl⟩

theorem f25519Reduce (rd ra : Reg) : Statement (.f25519Reduce rd ra) :=
  fun _ => ⟨⟨"f25519_reduce", 0x00000010#32, 0xFFFF00FF#32⟩, by simp [opcodeTable],
    beq_iff_eq.2 (and_mask_da _ rd ra), rfl⟩

theorem f25519Add (rd ra rb : Reg) : Statement (.f25519Add rd ra rb) :=
  fun _ => ⟨⟨"f25519_add", 0x00000011#32, 0xFFF000FF#32⟩, by simp [opcodeTable],
    beq_iff_eq.2 (and_mask_dab _ rd ra rb), rfl⟩

theorem f25519Sub (rd ra rb : Reg) : Statement (.f25519Sub rd ra rb) :=
  fun _ => ⟨⟨"f25519_sub", 0x00000012#32, 0xFFF000FF#32⟩, by simp [opcodeTable],
    beq_iff_eq.2 (and_mask_dab _ rd ra rb), rfl⟩

theorem f25519Mult (rd ra rb : Reg) : Statement (.f25519Mult rd ra rb) :=
  fun _ => ⟨⟨"f25519_mult", 0x00000013#32, 0xFFF000FF#32⟩, by simp [opcodeTable],
    beq_iff_eq.2 (and_mask_dab _ rd ra rb), rfl⟩

theorem f25519Inv (rd ra : Reg) : Statement (.f25519Inv rd ra) :=
  fun _ => ⟨⟨"f25519_inv", 0x00000014#32, 0xFFFF00FF#32⟩, by simp [opcodeTable],
    beq_iff_eq.2 (and_mask_da _ rd ra), rfl⟩

theorem f25519Serialize (rd ra : Reg) : Statement (.f25519Serialize rd ra) :=
  fun _ => ⟨⟨"f25519_serialize", 0x00000015#32, 0xFFFF00FF#32⟩, by simp [opcodeTable],
    beq_iff_eq.2 (and_mask_da _ rd ra), rfl⟩

theorem f25519Deserialize (rd ra : Reg) : Statement (.f25519Deserialize rd ra) :=
  fun _ => ⟨⟨"f25519_deserialize", 0x00000016#32, 0xFFFF00FF#32⟩, by simp [opcodeTable],
    beq_iff_eq.2 (and_mask_da _ rd ra), rfl⟩

theorem curve25519Ladder (rd ra rb : Reg) : Statement (.curve25519Ladder rd ra rb) :=
  fun _ => ⟨⟨"curve25519_ladder", 0x00000020#32, 0xFFF000FF#32⟩, by simp [opcodeTable],
    beq_iff_eq.2 (and_mask_dab _ rd ra rb), rfl⟩

end Sys2Proof.Laws.OpcodeRow
end

