-- ==== Sys2Proof/Laws/Prime.lean ====
section
/-! SUPPORT. P = 2^255 - 19 is prime, by Lucas certificates (primitive roots modulo P and modulo the large factors of P - 1). The spec
calls P the prime (spec/00_scope.md R7, R14); the inverse law of spec/41_f25519.md R155 rests on it. -/

namespace Sys2Proof.Laws

/-- acc * a^e mod n by repeated squaring, at most f bits of e. -/
def powMod (n : Nat) : Nat → Nat → Nat → Nat → Nat
  | 0, _, _, acc => acc
  | f + 1, a, e, acc =>
    if e = 0 then acc else powMod n f (a * a % n) (e / 2) (if e % 2 = 1 then acc * a % n else acc)

theorem powMod_eq (n : Nat) : ∀ f a e acc, e < 2 ^ f → powMod n f a e acc % n = acc * a ^ e % n := by
  intro f
  induction f with
  | zero => intro a e acc h; simp at h; simp [powMod, h]
  | succ f ih =>
    intro a e acc h
    unfold powMod
    split
    · subst_vars; simp
    · rw [ih _ _ _ (by omega)]
      have ha : a ^ e = (a * a) ^ (e / 2) * a ^ (e % 2) := by
        rw [← pow_two, ← pow_mul, ← pow_add, Nat.div_add_mod]
      rw [ha, Nat.mul_mod _ ((a * a % n) ^ (e / 2)), ← Nat.pow_mod, ← Nat.mul_mod]
      rcases Nat.mod_two_eq_zero_or_one e with h2 | h2 <;> rw [h2]
      · simp
      · rw [if_pos rfl, Nat.mul_mod (acc * a % n), Nat.mod_mod, ← Nat.mul_mod]
        congr 1; ring

/-- A Lucas certificate for p as a closed test: fs multiplies to p - 1, and a has order p - 1 modulo p. -/
def lucasTest (p a : Nat) (fs : List Nat) : Bool :=
  decide (1 < p ∧ p < 2 ^ 256 ∧ fs.prod = p - 1) && powMod p 256 a (p - 1) 1 % p == 1 &&
    fs.all (fun q => powMod p 256 a ((p - 1) / q) 1 % p != 1)

/-- A number with a Lucas certificate over prime factors is prime. -/
theorem prime_of_lucasTest (p a : Nat) (fs : List Nat) (h : lucasTest p a fs = true)
    (hprime : ∀ q ∈ fs, q.Prime) : p.Prime := by
  simp only [lucasTest, Bool.and_eq_true, decide_eq_true_eq, beq_iff_eq, List.all_eq_true, bne_iff_ne] at h
  obtain ⟨⟨⟨hp, hlt, hprod⟩, hone⟩, hne⟩ := h
  have key : ∀ e : Nat, e < 2 ^ 256 → ((a : ZMod p) ^ e = 1 ↔ powMod p 256 a e 1 % p = 1) := by
    intro e he
    have h := ZMod.natCast_eq_natCast_iff' (a ^ e) 1 p
    rw [Nat.mod_eq_of_lt hp] at h
    rw [powMod_eq _ _ _ _ _ he, one_mul, ← h]; push_cast; rfl
  refine lucas_primality p a ((key _ (by omega)).2 hone) (fun q hq hdvd => ?_)
  rw [← hprod] at hdvd
  obtain ⟨r, hr, hqr⟩ := (hq.prime.dvd_prod_iff).1 hdvd
  have hqr : q = r := (Nat.prime_dvd_prime_iff_eq hq (hprime r hr)).1 hqr
  subst hqr
  have hlt' : (p - 1) / q < 2 ^ 256 := lt_of_le_of_lt (Nat.div_le_self _ _) (by omega)
  exact fun h => hne _ hr ((key _ hlt').1 h)

theorem prime_2773320623 : Nat.Prime 2773320623 :=
  prime_of_lucasTest _ 5 [2, 2437, 569003] (by decide +kernel) (by norm_num)

theorem prime_72106336199 : Nat.Prime 72106336199 :=
  prime_of_lucasTest _ 7 [2, 13, 2773320623] (by decide +kernel) (by
    simp only [List.forall_mem_cons]
    exact ⟨by norm_num, by norm_num, prime_2773320623, by simp⟩)

theorem prime_1919519569386763 : Nat.Prime 1919519569386763 :=
  prime_of_lucasTest _ 2 [2, 3, 7, 19, 47, 47, 127, 8574133] (by decide +kernel) (by norm_num)

theorem prime_31757755568855353 : Nat.Prime 31757755568855353 :=
  prime_of_lucasTest _ 10 [2, 2, 2, 3, 31, 107, 223, 4153, 430751] (by decide +kernel) (by norm_num)

theorem prime_75445702479781427272750846543864801 : Nat.Prime 75445702479781427272750846543864801 :=
  prime_of_lucasTest _ 7 [2, 2, 2, 2, 2, 3, 3, 5, 5, 75707, 72106336199, 1919519569386763] (by decide +kernel) (by
    simp only [List.forall_mem_cons]
    exact ⟨by norm_num, by norm_num, by norm_num, by norm_num, by norm_num, by norm_num, by norm_num,
      by norm_num, by norm_num, by norm_num, prime_72106336199, prime_1919519569386763, by simp⟩)

/-- The large prime factor of P - 1. -/
theorem prime_bigFactor : Nat.Prime 74058212732561358302231226437062788676166966415465897661863160754340907 :=
  prime_of_lucasTest _ 2 [2, 3, 353, 57467, 132049, 1923133, 31757755568855353, 75445702479781427272750846543864801]
    (by decide +kernel) (by
    simp only [List.forall_mem_cons]
    exact ⟨by norm_num, by norm_num, by norm_num, by norm_num, by norm_num, by norm_num, prime_31757755568855353,
      prime_75445702479781427272750846543864801, by simp⟩)

/-- The modulus of the field is prime (R7, R14). -/
theorem prime_P : Nat.Prime Config.P :=
  prime_of_lucasTest _ 2 [2, 2, 3, 65147, 74058212732561358302231226437062788676166966415465897661863160754340907]
    (by decide +kernel) (by
    simp only [List.forall_mem_cons]
    exact ⟨by norm_num, by norm_num, by norm_num, by norm_num, prime_bigFactor, by simp⟩)

end Sys2Proof.Laws
end

