-- ==== Sys2Proof/Laws/Run.lean ====
section
/-! SUPPORT. Runs of the machine: a run by its first step, and the induction over a run packaged once. -/

namespace Sys2Proof.Machine

theorem run_zero (s : State) : core.run 0 s = .next s := rfl

/-- A run of n + 1 steps whose first step goes on is the run of n steps from there. -/
theorem run_succ_of_next {n : Nat} {s t : State} (h : step s = .next t) : core.run (n + 1) s = core.run n t := by
  have h' : core.step s = .next t := h
  simp only [Host.Core.run, h']

/-- What every step keeps, every run keeps. -/
theorem run_keeps {I : State → Prop} (hstep : ∀ s t, I s → step s = .next t → I t) :
    ∀ (n : Nat) (s t : State), I s → core.run n s = .next t → I t := by
  intro n
  induction n with
  | zero => intro s t hs h; cases h; exact hs
  | succ n ih =>
    intro s t hs h
    cases hst : step s with
    | next u => rw [run_succ_of_next hst] at h; exact ih u t (hstep s u hs hst) h
    | fault r => cases r
    | refused r =>
      have h' : core.step s = .refused r := hst
      simp only [Host.Core.run, h'] at h
      cases h

end Sys2Proof.Machine
end

