-- ==== Sys2Proof/Laws/Window.lean ====
section
/-! SUPPORT. The window map at each of its registers (spec/20_memory.md R51), the digits and bytes of an operand after a digit
write (R55, R59), and the step by the event it takes (R58, R62). -/

namespace Sys2Proof.Machine

theorem digitOffset_toNat (i : Reg) (j : DigitIx) : (digitOffset i j).toNat = 0x20 * i.val + 4 * j.val := by
  have := i.isLt
  have := j.isLt
  rw [digitOffset, BitVec.toNat_ofNat]
  omega

@[simp] theorem windowReg_digitOffset (i : Reg) (j : DigitIx) : windowReg (digitOffset i j) = .digit i j := by
  have h1 := i.isLt
  have h2 := j.isLt
  unfold windowReg
  rw [digitOffset_toNat, if_pos (by omega)]
  congr 1 <;> (apply Fin.ext; simp; omega)

@[simp] theorem aligned_digitOffset (i : Reg) (j : DigitIx) : aligned (digitOffset i j) = true := by
  simp [aligned, digitOffset_toNat]
  omega

/-- Byte b of x[n] lies in the word of digit b / 4 (R55). -/
theorem windowReg_of_register (o : Offset) (n : Reg) (b : Nat) (hb : b < 32) (ho : o.toNat = 0x20 * n.val + b) :
    windowReg o = .digit n ⟨b / 4, by omega⟩ := by
  have h1 := n.isLt
  unfold windowReg
  rw [ho, if_pos (by omega)]
  congr 1 <;> (apply Fin.ext; simp; omega)

@[simp] theorem windowReg_cmd : windowReg cmdOffset = .cmd := by decide
@[simp] theorem windowReg_status : windowReg statusOffset = .status := by decide
@[simp] theorem windowReg_res : windowReg resOffset = .res := by decide
@[simp] theorem windowReg_id : windowReg idOffset = .id := by decide

theorem windowReg_of_ge (o : Offset) (h : 0x210 ≤ o.toNat) : windowReg o = .reserved := by
  unfold windowReg
  rw [if_neg (by omega), if_neg (by omega), if_neg (by omega), if_neg (by omega), if_neg (by omega)]

/-- The mask of one digit. -/
theorem getLsbD_digitMask (k : Nat) : (0xFFFFFFFF#256).getLsbD k = decide (k < 32) := by
  rw [BitVec.getLsbD_ofNat, show 0xFFFFFFFF = 2 ^ 32 - 1 from rfl, Nat.testBit_two_pow_sub_one]
  by_cases h : k < 32
  · simp [h, show k < 256 by omega]
  · simp [h]

/-- Digit j after a write of digit j (R59). -/
theorem digit_setDigit_self (v : Operand) (j : DigitIx) (w : Word) : digit (setDigit v j w) j = w := by
  have hj := j.isLt
  unfold digit setDigit
  ext i hi
  simp only [BitVec.getElem_extractLsb', BitVec.getLsbD_or, BitVec.getLsbD_and, BitVec.getLsbD_not,
    BitVec.getLsbD_shiftLeft, BitVec.getLsbD_setWidth]
  have h1 : 32 * j.val + i < 256 := by omega
  have h3 : 32 * j.val + i - 32 * j.val = i := by omega
  have h5 : i < 256 := by omega
  rw [getLsbD_digitMask]
  simp [h1, h3, hi, h5]

/-- Bits outside digit j after a write of digit j (R59). -/
theorem getLsbD_setDigit_of_out (v : Operand) (j : DigitIx) (w : Word) (k : Nat)
    (h : k < 32 * j.val ∨ 32 * j.val + 32 ≤ k) : (setDigit v j w).getLsbD k = v.getLsbD k := by
  have hj := j.isLt
  unfold setDigit
  by_cases hk : k < 256
  · simp only [BitVec.getLsbD_or, BitVec.getLsbD_and, BitVec.getLsbD_not, BitVec.getLsbD_shiftLeft,
      BitVec.getLsbD_setWidth, getLsbD_digitMask]
    rcases h with h | h
    · simp [hk, h]
    · have h2 : ¬ k < 32 * j.val := by omega
      have h3 : ¬ k - 32 * j.val < 32 := by omega
      simp [hk, h2, h3, BitVec.getLsbD_of_ge w _ (not_lt.1 h3)]
  · rw [BitVec.getLsbD_of_ge _ _ (by omega), BitVec.getLsbD_of_ge _ _ (by omega)]

/-- Another digit after a write of digit j (R59). -/
theorem digit_setDigit_of_ne (v : Operand) (j j' : DigitIx) (w : Word) (h : j' ≠ j) :
    digit (setDigit v j w) j' = digit v j' := by
  have hne : j'.val ≠ j.val := fun e => h (Fin.ext e)
  unfold digit
  ext i hi
  simp only [BitVec.getElem_extractLsb']
  exact getLsbD_setDigit_of_out v j w _ (by omega)

/-- A step of an idle block holds the state (R214). -/
theorem step_nil {s : State} (h : s.pending = []) : step s = .next s := by
  simp [step, nextEvent, h]

/-- A step takes the oldest event (R62). -/
theorem step_cons {s : State} {e : HostEvent} {rest : List HostEvent} (h : s.pending = e :: rest) :
    step s = hostEvent e { s with pending := rest, reply := none } := by
  simp [step, nextEvent, h]

/-- A command word that arrives is run with CMD_LAST holding it (R58). -/
theorem step_cmdEvent {s : State} {w : Word} {rest : List HostEvent} (h : s.pending = cmdEvent w :: rest) :
    step s = runCommand w { s with pending := rest, reply := none, cmdLast := w } := by
  rw [step_cons h]
  rfl

/-- A digit write that arrives sets that digit (R59). -/
theorem step_digitWrite {s : State} {i : Reg} {j : DigitIx} {v : Word} {rest : List HostEvent}
    (h : s.pending = .access (.write 4 (digitOffset i j) v) :: rest) :
    step s = .next (({ s with pending := rest, reply := none }).setX i (setDigit (s.getX i) j v)) := by
  rw [step_cons h]
  simp [hostEvent, hostAccess, memWrite]
  rfl

end Sys2Proof.Machine
end

