-- ==== Sys2Proof/Tests/Slice0.lean ====
section
/-! SUPPORT. The model's own tests. Expected values are those of spec/95_test_vectors.md (the id stands beside each) or of the
rule named; words are written out from spec/30_encoding.md R70 to R80. Each test is about one step on a small state. The theorems
named witness_… show a concrete state and operands that meet the hypotheses of the statement they name. -/

namespace Sys2Proof.Tests

-- One theorem after another: each parallel check reserves a stack of its own, and the package as one text has a memory limit.
set_option Elab.async false

open Sys2Proof Sys2Proof.Machine

/-! ## Helpers -/

/-- The reset state with some operand registers written and some events waiting. -/
def st (xs : List (Reg × Operand)) (evs : List HostEvent) : State :=
  { xs.foldl (fun s p => s.setX p.1 p.2) State.reset with pending := evs }

/-- The next state, if there is one. -/
def nextOf : Result → Option State
  | .next t => some t
  | .fault _ => none
  | .refused _ => none

/-- The command word as the first event: the registers listed after it, RES, STATUS as the host reads it, CMD_LAST = the word. -/
def vec (w : Word) (ins outs : List (Reg × Operand)) (res status : Word) : Bool :=
  match step ((st ins []).withFetchWord 32 w.toNat) with
  | .next t =>
    outs.all (fun p => t.getX p.1 == p.2) && t.res == res && t.memRead 0x204#12 == status && t.memRead 0x200#12 == w &&
      t.pending.isEmpty
  | .fault _ => false
  | .refused _ => false

/-- One event on the state: a check of the state after it. -/
def after (s : State) (e : HostEvent) (check : State → Bool) : Bool :=
  match step { s with pending := [e] } with
  | .next t => check t
  | .fault _ => false
  | .refused _ => false

/-- One event on the state: it is refused with this reason. -/
def refusedWith (s : State) (e : HostEvent) (r : Refusal) : Bool :=
  match step { s with pending := [e] } with
  | .next _ => false
  | .fault _ => false
  | .refused q => q == r

def wr (o : Offset) (v : Word) : HostEvent := .access (.write 4 o v)
def rd (o : Offset) : HostEvent := .access (.read 4 o)

def vP : Operand := 0x7fffffffffffffffffffffffffffffffffffffffffffffffffffffffffffffed#256
def vP1 : Operand := 0x7fffffffffffffffffffffffffffffffffffffffffffffffffffffffffffffec#256
def vMax : Operand := 0xffffffffffffffffffffffffffffffffffffffffffffffffffffffffffffffff#256
def vTA : Operand := 0x0123456789abcdeffedcba98765432100f1e2d3c4b5a69788796a5b4c3d2e1f0#256
def vTB : Operand := 0xfedcba98765432100123456789abcdeff0e1d2c3b4a5968778695a4b3c2d1e0f#256
def vTC : Operand := 0x7edcba98765432100123456789abcdeff0e1d2c3b4a5968778695a4b3c2d1e22#256
/-- TA - TB mod 2^256 (M-S4) -/
def vTD : Operand := 0x02468acf13579bdffdb97530eca864201e3c5a7896b4d2f10f2d4b6987a5c3e1#256
/-- Alice's clamped scalar (V-L2) -/
def vAlice : Operand := 0x6a2cb91da5fb77b12a99c0eb872f4cdf4566b25172c1163c7da518730a6d0770#256
/-- Alice's public key (V-L2) -/
def vAlicePub : Operand := 0x6a4e9baa8ea9a4ebf41a38260d3abf0d5af73eb4dc7d8b7454a7308909f02085#256

/-! ## WellFormed -/

/-- R74: an odd destination of mpi_widening_mult is refused, an even one is not. -/
theorem test_wellFormed_pair :
    (Instr.mpiWideningMult 5 0 1).wellFormed = false ∧ (Instr.mpiWideningMult 15 0 0).wellFormed = false ∧
      (Instr.mpiWideningMult 14 15 15).wellFormed = true ∧ (Instr.mpiAdd 5 0 1).wellFormed = true := by decide

/-! ## Decode -/

/-- E-1 to E-4 and E-14 to E-16: RSV RB RA RD OP, the MPI commands. -/
theorem test_decode_mpi :
    decode 0b00000000000000010000001000000001#32 = .ok (.mpiAdd 2 0 1) ∧
    decode 0x000FFF01#32 = .ok (.mpiAdd 15 15 15) ∧
    decode 0b00000000000000010000001000000010#32 = .ok (.mpiSubBorrow 2 0 1) ∧
    decode 0b00000000000000010000000000000011#32 = .ok (.mpiCmp 0 1) ∧
    decode 0x000FF003#32 = .ok (.mpiCmp 15 15) ∧
    decode 0b00000000000000010000010000000100#32 = .ok (.mpiWideningMult 4 0 1) ∧
    decode 0x000FFE04#32 = .ok (.mpiWideningMult 14 15 15) := by decide +kernel

/-- E-5 to E-13: the field commands and the ladder. -/
theorem test_decode_field :
    decode 0b00000000000000000000000100010000#32 = .ok (.f25519Reduce 1 0) ∧
    decode 0b00000000000000010000001000010001#32 = .ok (.f25519Add 2 0 1) ∧
    decode 0x00010212#32 = .ok (.f25519Sub 2 0 1) ∧
    decode 0x00010213#32 = .ok (.f25519Mult 2 0 1) ∧
    decode 0x00055313#32 = .ok (.f25519Mult 3 5 5) ∧
    decode 0x00000114#32 = .ok (.f25519Inv 1 0) ∧
    decode 0x00000115#32 = .ok (.f25519Serialize 1 0) ∧
    decode 0x00000116#32 = .ok (.f25519Deserialize 1 0) ∧
    decode 0b00000000000000010000001000100000#32 = .ok (.curve25519Ladder 2 0 1) := by decide +kernel

/-- E-I1 to E-I15: illegal words, each with its ground. -/
theorem test_decode_illegal :
    decode 0x00000000#32 = .error .unknownOp ∧ decode 0x00000005#32 = .error .unknownOp ∧
    decode 0x00000017#32 = .error .unknownOp ∧ decode 0x00000021#32 = .error .unknownOp ∧
    decode 0x000000FF#32 = .error .unknownOp ∧ decode 0x00110201#32 = .error .reservedBits ∧
    decode 0x80010201#32 = .error .reservedBits ∧ decode 0x00010103#32 = .error .unusedField ∧
    decode 0x00010504#32 = .error .oddPair ∧ decode 0x00000F04#32 = .error .oddPair ∧
    decode 0x00010110#32 = .error .unusedField ∧ decode 0x00020114#32 = .error .unusedField ∧
    decode 0x00030115#32 = .error .unusedField ∧ decode 0x000F0116#32 = .error .unusedField ∧
    decode 0x00110213#32 = .error .reservedBits := by decide +kernel

/-- The encoder writes the words of spec/95_test_vectors.md 2.1. -/
theorem test_encode :
    encode (.mpiAdd 2 0 1) = 0x00010201#32 ∧ encode (.mpiCmp 0 1) = 0x00010003#32 ∧
    encode (.mpiWideningMult 14 15 15) = 0x000FFE04#32 ∧ encode (.f25519Inv 1 0) = 0x00000114#32 ∧
    encode (.curve25519Ladder 2 0 1) = 0x00010220#32 := by decide +kernel

/-- The opcode table's numbering of bits is the word's own; a bit above nbits is 0. -/
theorem test_decodeTableWord :
    decodeTableWord 32 0x00010201 = some (.mpiAdd 2 0 1) ∧ decodeTableWord 32 0x00110201 = none ∧
    decodeTableWord 32 0x00000004 = some (.mpiWideningMult 0 0 0) := by decide +kernel

/-- R80, R81: an assembler line, the pseudo-instruction (E-9), and an odd pair. -/
theorem test_assemble :
    assemble "mpi_add" [2, 0, 1] = some (.mpiAdd 2 0 1) ∧
    (assemble "f25519_square" [3, 5]).map encode = some 0x00055313#32 ∧
    assemble "mpi_widening_mult" [5, 0, 1] = none ∧ assemble "mpi_add" [2, 0] = none := by decide +kernel

/-! ## One step of each command -/

/-- M-A2, M-A6, M-A7, M-A8 -/
theorem test_mpi_add :
    vec 0x00010201#32 [(0, vMax), (1, 1#256)] [(0, vMax), (1, 1#256), (2, 0#256)] 1#32 0#32 = true ∧
    vec 0x00010201#32 [(0, vTD), (1, vTB)] [(2, vTA)] 1#32 0#32 = true ∧
    vec 0x00000001#32 [(0, 1#256 <<< 255)] [(0, 0#256)] 1#32 0#32 = true ∧
    vec 0x00010201#32 [(0, vP), (1, vP)]
      [(2, 0xffffffffffffffffffffffffffffffffffffffffffffffffffffffffffffffda#256)] 0#32 0#32 = true := by decide +kernel

/-- M-S2, M-S4, M-S6, M-S7 -/
theorem test_mpi_sub_borrow :
    vec 0x00010202#32 [(1, 1#256)] [(0, 0#256), (2, vMax)] 0xFFFFFFFF#32 0#32 = true ∧
    vec 0x00010202#32 [(0, vTA), (1, vTB)] [(0, vTA), (1, vTB), (2, vTD)] 0xFFFFFFFF#32 0#32 = true ∧
    vec 0x00033302#32 [(3, vTA)] [(3, 0#256)] 0#32 0#32 = true ∧
    vec 0x00010202#32 [(0, vTB), (1, vP)] [(2, vTC)] 0#32 0#32 = true := by decide +kernel

/-- M-C3 to M-C7: the sign, and which digit decides -/
theorem test_mpi_cmp :
    vec 0x00010003#32 [(0, 1#256 <<< 255), (1, (1#256 <<< 255) - 1#256)] [(0, 1#256 <<< 255)] 1#32 0#32 = true ∧
    vec 0x00010003#32 [(0, 1#256 <<< 224), (1, (1#256 <<< 224) - 1#256)] [] 1#32 0#32 = true ∧
    vec 0x00010003#32 [(0, 2#256), (1, 3#256)] [(0, 2#256), (1, 3#256), (2, 0#256)] 0xFFFFFFFF#32 0#32 = true ∧
    vec 0x00010003#32 [(0, vTA), (1, vTA)] [] 0#32 0#32 = true := by decide +kernel

/-- M-W1, M-W4, M-W7; and the odd destination E-I9 -/
theorem test_mpi_widening_mult :
    vec 0x00010404#32 [(0, vMax), (1, vMax)] [(4, 1#256), (5, vMax - 1#256)] 0#32 0#32 = true ∧
    vec 0x00010404#32 [(0, vTA), (1, vTB)]
      [(4, 0x87c6627a2b94d4073968a203abb8477787886c14633a7c09c5914ee027055d10#256),
       (5, 0x0121fa00ad77d7431ff2e48e8a71de69ccd354b761ba270edcf1b5b16d724877#256)] 0#32 0#32 = true ∧
    vec 0x00010004#32 [(0, vMax), (1, vMax)] [(0, 1#256), (1, vMax - 1#256)] 0#32 0#32 = true ∧
    vec 0x00010504#32 [(0, 3#256), (1, 5#256), (5, 7#256), (6, 9#256)] [(5, 7#256), (6, 9#256)] 0#32 0x101#32 = true := by
  decide +kernel

/-- F-R2, F-R3, F-R5, F-R8; and RB = 1 (E-I11) -/
theorem test_f25519_reduce :
    vec 0x00000110#32 [(0, vP1)] [(1, vP1)] 0#32 0#32 = true ∧
    vec 0x00000110#32 [(0, vP), (1, 7#256)] [(1, 0#256)] 0#32 0#32 = true ∧
    vec 0x00000110#32 [(0, vMax)] [(1, 0x25#256)] 0#32 0#32 = true ∧
    vec 0x00000110#32 [(0, vTB)] [(0, vTB), (1, vTC)] 0#32 0#32 = true ∧
    vec 0x00010110#32 [(0, vTB)] [(1, 0#256)] 0#32 0x101#32 = true := by decide +kernel

/-- F-A3, F-A4, F-A6; F-A7 and F-A8 -/
theorem test_f25519_add :
    vec 0x00010211#32 [(0, vP1), (1, vP1)] [(2, vP1 - 1#256)] 0#32 0#32 = true ∧
    vec 0x00010211#32 [(0, vTA), (1, vTC)] [(2, 0x25#256)] 0#32 0#32 = true ∧
    vec 0x00000011#32 [(0, vP1)] [(0, vP1 - 1#256)] 0#32 0#32 = true ∧
    vec 0x00010211#32 [(0, vTA), (1, vTB), (2, 7#256)] [(2, 7#256)] 0#32 0x102#32 = true ∧
    vec 0x00010211#32 [(0, vP), (2, 7#256)] [(2, 7#256)] 0#32 0x102#32 = true := by decide +kernel

/-- F-S2, F-S4, F-S5, F-S7; F-S8 -/
theorem test_f25519_sub :
    vec 0x00010212#32 [(1, 1#256)] [(2, vP1)] 0#32 0#32 = true ∧
    vec 0x00010212#32 [(0, vTA), (1, vTC)]
      [(2, 0x02468acf13579bdffdb97530eca864201e3c5a7896b4d2f10f2d4b6987a5c3bb#256)] 0#32 0#32 = true ∧
    vec 0x00010212#32 [(0, vTC), (1, vTA)]
      [(2, 0x7db97530eca8642002468acf13579bdfe1c3a587694b2d0ef0d2b496785a3c32#256)] 0#32 0#32 = true ∧
    vec 0x00010212#32 [(2, 7#256)] [(2, 0#256)] 0#32 0#32 = true ∧
    vec 0x00010212#32 [(1, vTB), (2, 7#256)] [(2, 7#256)] 0#32 0x102#32 = true := by decide +kernel

/-- F-M4, F-M5, F-M7, F-M8; F-M9 -/
theorem test_f25519_mult :
    vec 0x00010213#32 [(0, vP1), (1, vP1)] [(2, 1#256)] 0#32 0#32 = true ∧
    vec 0x00010213#32 [(0, vTA), (1, vTC)]
      [(2, 0x32d17e93eb5ec7fdf7768f2c389f4b2beee6ff4ce4dc483e9172473665fc1ecd#256)] 0#32 0#32 = true ∧
    vec 0x00033313#32 [(3, vTA)]
      [(3, 0x77478962fa75fbb1de7068dce18bf12640758a69ff34f62d0753abe9e77e88d0#256)] 0#32 0#32 = true ∧
    vec 0x00010213#32 [(0, 2#256), (1, 1#256 <<< 254)] [(2, 0x13#256)] 0#32 0#32 = true ∧
    vec 0x00010213#32 [(0, vTA), (1, vTB), (2, 7#256)] [(2, 7#256)] 0#32 0x102#32 = true := by decide +kernel

/-- F-I3, F-I6, F-I8; F-I10 -/
theorem test_f25519_inv :
    vec 0x00000114#32 [(0, 2#256)]
      [(1, 0x3ffffffffffffffffffffffffffffffffffffffffffffffffffffffffffffff7#256)] 0#32 0#32 = true ∧
    vec 0x00000114#32 [(0, vP1)] [(1, vP1)] 0#32 0#32 = true ∧
    vec 0x00000114#32 [(0, vTC)]
      [(1, 0x5579b5526c790fb9bfa3fdaa579752d16d2a487e07d68e07bc7258d7fa24d823#256)] 0#32 0#32 = true ∧
    vec 0x00000114#32 [(0, vP), (1, 7#256)] [(1, 7#256)] 0#32 0x102#32 = true := by decide +kernel

/-- RST-6: the inverse right after reset -/
theorem test_f25519_inv_after_reset : vec 0x00000114#32 [] [(1, 0#256)] 0#32 0#32 = true := by decide +kernel

/-- F-D5 with its message's first and last bytes; F-D6 -/
theorem test_f25519_serialize :
    vec 0x00000115#32 [(0, vTA)] [(0, vTA), (1, vTA)] 0#32 0#32 = true ∧
    ((messageOf vTA).take 3 = [0xf0#8, 0xe1#8, 0xd2#8] ∧ (messageOf vTA).drop 30 = [0x23#8, 0x01#8]) ∧
    vec 0x00000115#32 [(0, vTB), (1, 7#256)] [(1, 7#256)] 0#32 0x102#32 = true := by decide +kernel

/-- F-D1 from its message; F-D4; F-D2 and F-D3 -/
theorem test_f25519_deserialize :
    vec 0x00000116#32 [(0, BitVec.ofNat 256 (messageValue (0x09#8 :: List.replicate 31 0#8)))] [(1, 9#256)] 0#32 0#32 = true ∧
    vec 0x00000116#32 [(0, vP1)] [(1, vP1)] 0#32 0#32 = true ∧
    vec 0x00000116#32 [(0, vP), (1, 7#256)] [(1, 7#256)] 0#32 0x102#32 = true ∧
    vec 0x00000116#32 [(0, vMax), (1, 7#256)] [(1, 7#256)] 0#32 0x102#32 = true := by decide +kernel

/-- V-L2, L-C3, L-C9, L-C12 -/
theorem test_curve25519_ladder :
    vec 0x00010220#32 [(0, vAlice), (1, 9#256)] [(0, vAlice), (1, 9#256), (2, vAlicePub)] 0#32 0#32 = true ∧
    vec 0x00010220#32 [(1, 9#256)]
      [(2, 0x743bcb585f9990edc2cfc4af84f6ff300729bb5facda28154362cd47a37de52f#256)] 0#32 0#32 = true ∧
    vec 0x00010220#32 [(0, vAlice ^^^ (3#256 <<< 254)), (1, 9#256)] [(2, vAlicePub)] 0#32 0#32 = true ∧
    vec 0x00000020#32 [(0, 9#256)]
      [(0, 0x7a42764196ffcefdad4814eacb12464a6b9cd6fda5a900afed56ebdf85866a0e#256)] 0#32 0#32 = true := by decide +kernel

/-- L-C1, L-C4, L-C5 (degenerate); L-C6, L-C7 (range) -/
theorem test_curve25519_ladder_edges :
    vec 0x00010220#32 [(0, vAlice), (2, 7#256)] [(2, 0#256)] 0#32 0#32 = true ∧
    vec 0x00010220#32 [(0, vAlice), (1, 1#256), (2, 7#256)] [(2, 0#256)] 0#32 0#32 = true ∧
    vec 0x00010220#32 [(0, vAlice), (1, vP1), (2, 7#256)] [(2, 0#256)] 0#32 0#32 = true ∧
    vec 0x00010220#32 [(0, vAlice), (1, vP), (2, 7#256)] [(2, 7#256)] 0#32 0x102#32 = true ∧
    vec 0x00010220#32 [(1, (1#256 <<< 255) + 9#256), (2, 7#256)] [(2, 7#256)] 0#32 0x102#32 = true := by decide +kernel

/-! ## The window -/

/-- W-1, W-4: a digit write -/
theorem test_window_digits :
    after State.reset (wr 0x000#12 0x04030201#32) (fun t => t.getX 0 == 0x04030201#256 &&
      t.windowByte 0x000#12 == 1#8 && t.windowByte 0x001#12 == 2#8 && t.windowByte 0x003#12 == 4#8) = true ∧
    after (st [(15, 5#256)] []) (wr 0x1FC#12 0x80000000#32) (fun t => t.getX 15 == (1#256 <<< 255) + 5#256) = true := by
  decide +kernel

/-- W-3: a message in a register, by the digits of R57 -/
theorem test_window_message :
    let s := st [(2, BitVec.ofNat 256 (messageValue ((List.range 32).map (BitVec.ofNat 8))))] []
    s.memRead 0x040#12 = 0x03020100#32 ∧ s.memRead 0x05C#12 = 0x1f1e1d1c#32 := by decide +kernel

/-- W-5 to W-9: ID, RES and the reserved words; RST-1 to RST-5 -/
theorem test_window_constant :
    State.reset.memRead 0x20C#12 = 0x25510007#32 ∧ State.reset.memRead 0x210#12 = 0#32 ∧
    State.reset.memRead 0xFFC#12 = 0#32 ∧ State.reset.memRead 0x1FC#12 = 0#32 ∧ State.reset.memRead 0x204#12 = 0#32 ∧
    after State.reset (wr 0x20C#12 0#32) (fun t => t.memRead 0x20C#12 == 0x25510007#32) = true ∧
    after State.reset (wr 0x208#12 0x12345678#32) (fun t => t.memRead 0x208#12 == 0#32) = true ∧
    after State.reset (wr 0x400#12 0xFFFFFFFF#32) (fun t => t == State.reset) = true := by decide +kernel

/-- W-10 to W-13: an illegal command, then STATUS writes, then a good command -/
theorem test_window_status :
    after State.reset (wr 0x200#12 0#32) (fun t => t.memRead 0x204#12 == 0x101#32 && t.memRead 0x200#12 == 0#32) = true ∧
    after { State.reset with status := 0x101#32 } (wr 0x204#12 0x000000FF#32) (fun t => t.memRead 0x204#12 == 0x101#32) = true ∧
    after { State.reset with status := 0x101#32 } (wr 0x204#12 0xFFFFFFFF#32) (fun t => t.memRead 0x204#12 == 0x001#32) = true ∧
    after { State.reset with status := 0x001#32 } (wr 0x200#12 0x00000003#32) (fun t => t.memRead 0x204#12 == 0#32) = true := by
  decide +kernel

/-- W-14: byte and halfword accesses and a misaligned word are refused; an aligned read is answered -/
theorem test_window_refused :
    refusedWith State.reset (.access (.read 1 0x000#12)) (.accessWidth 1) = true ∧
    refusedWith State.reset (.access (.write 2 0x000#12 0#32)) (.accessWidth 2) = true ∧
    refusedWith State.reset (.access (.read 4 0x002#12)) (.accessMisaligned 0x002#12) = true ∧
    after State.reset (rd 0x20C#12) (fun t => t.reply == some 0x25510007#32) = true := by decide +kernel

/-- R54: a bus address inside the window, at its ends and outside it -/
theorem test_busOffset :
    busOffset 0x40000 0x40204 = some 0x204#12 ∧ busOffset 0x40000 0x40FFF = some 0xFFF#12 ∧
    busOffset 0x40000 0x41000 = none ∧ busOffset 0x40000 0x3FFFF = none := by decide +kernel

/-- R82: clr and cmd as accesses -/
theorem test_script :
    scriptClr = [wr 0x204#12 0x100#32] ∧ scriptCmd (.mpiAdd 2 0 1) = [wr 0x200#12 0x00010201#32] ∧
    scriptRdRes = [rd 0x208#12] ∧ (scriptWr 1 9#256).head? = some (wr 0x020#12 9#32) ∧
    (scriptRdX 15).getLast? = some (rd 0x1FC#12) := by decide +kernel

/-! ## Witnesses: the hypotheses of the statements can be met -/

/-- A waiting reset, and a waiting reset that cuts a command short. -/
theorem witness_ResetInputRestoresResetState :
    (st [(3, vTA)] [.reset]).pending = .reset :: [] ∧
    (st [(3, vTA)] [.cmdCutByReset 0x00010201#32, .reset]).pending = .cmdCutByReset 0x00010201#32 :: [.reset] := by decide

theorem witness_DecodeOfEncode :
    (Instr.mpiWideningMult 14 15 15).wellFormed = true ∧ (Instr.curve25519Ladder 15 15 15).wellFormed = true := by decide

theorem witness_EncodeOfDecode : decode 0x000FFE04#32 = .ok (.mpiWideningMult 14 15 15) := by decide +kernel

/-- One word for each of the four grounds of R77. -/
theorem witness_IllegalWordsEndWithEIllegal_grounds :
    illegalWord 0x00000005 ∧ illegalWord 0x00110201 ∧ illegalWord 0x00000F03 ∧ illegalWord 0x000F0116 ∧
      illegalWord 0x00000F04 := by simp [illegalWord]

theorem witness_IllegalWordsEndWithEIllegal_legal :
    ¬ illegalWord 0x00000001 ∧ ¬ illegalWord 0x000FFF20 ∧ ¬ illegalWord 0x000FFE04 := by simp [illegalWord]

theorem witness_IllegalWordsEndWithEIllegal_pending :
    (st [(0, vTA)] [cmdEvent 0x00000F04#32]).pending = cmdEvent 0x00000F04#32 :: [] := by decide

theorem witness_DecoderAgreesWithOpcodeTable :
    decode 0x00010201#32 = .ok (.mpiAdd 2 0 1) ∧ (⟨"mpi_add", 0x00000001#32, 0xFFF000FF#32⟩ : OpcodeRow) ∈ opcodeTable ∧
    OpcodeRow.fits ⟨"mpi_add", 0x00000001#32, 0xFFF000FF#32⟩ 0x00010201#32 = true := by decide +kernel

theorem witness_AssemblerReadsLines : (Instr.mpiWideningMult 14 0 1).wellFormed = true := by decide

theorem witness_StepRunsDecodedCommand :
    (st [(0, vTA)] [wr 0x200#12 0x00010201#32]).pending = .access (.write 4 0x200#12 0x00010201#32) :: [] ∧
    decode 0x00010201#32 = .ok (.mpiAdd 2 0 1) := by decide +kernel

/-- A legal state with SERR set and RES all ones that steps to a next state. -/
theorem witness_StepKeepsRegistersLegal :
    let s := { st [] [cmdEvent 0x00010003#32] with status := 0x102#32, res := 0xFFFFFFFF#32 }
    (statusLegal s.status = true ∧ resLegal s.res = true) ∧ ∃ t, step s = .next t :=
  ⟨by decide, _, rfl⟩

theorem witness_SpecifiedAccessesNeverStop :
    (st [] [wr 0xFFC#12 1#32, rd 0x204#12, .reset, .cmdCutByReset 0#32, cmdEvent 0xFFFFFFFF#32]).hostSpecified = true := by
  decide

/-- A read of another width, a misaligned write, and the highest aligned offset. -/
theorem witness_UnspecifiedAccessRefused :
    ((st [] [.access (.read 8 0x000#12)]).pending = .access (.read 8 0x000#12) :: [] ∧ (8 : Nat) ≠ 4) ∧
    ((st [] [wr 0xFFD#12 0#32]).pending = .access (.write 4 0xFFD#12 0#32) :: [] ∧ (0xFFD#12).toNat % 4 ≠ 0) ∧
    ((st [] [wr 0xFFC#12 0#32]).pending = .access (.write 4 0xFFC#12 0#32) :: [] ∧ (0xFFC#12).toNat % 4 = 0) := by decide

/-- A write, a reset and a cut command that change the block's registers. -/
theorem witness_OnlyWritesAndResetChangeBlock :
    (∃ t, step (st [] [wr 0x1FC#12 1#32]) = .next t ∧ ¬ SameBlock (st [] [wr 0x1FC#12 1#32]) t) ∧
    (∃ t, step (st [(0, 1#256)] [.reset]) = .next t ∧ ¬ SameBlock (st [(0, 1#256)] [.reset]) t) ∧
    (∃ t, step (st [(0, 1#256)] [.cmdCutByReset 0#32]) = .next t ∧
      ¬ SameBlock (st [(0, 1#256)] [.cmdCutByReset 0#32]) t) :=
  ⟨⟨_, rfl, fun h => absurd h.1 (by decide)⟩, ⟨_, rfl, fun h => absurd h.1 (by decide)⟩,
    ⟨_, rfl, fun h => absurd h.1 (by decide)⟩⟩

/-- A checked source at P, and at P - 1. -/
theorem witness_CommandEndsWithItsCode :
    illegalWord (0x00000021#32).toNat ∧
    (decode 0x00000114#32 = .ok (.f25519Inv 1 0) ∧ ∃ r ∈ (Instr.f25519Inv 1 0).checked, Config.P ≤ (st [(0, vP)] []).val r) ∧
    ∀ r ∈ (Instr.f25519Inv 1 0).checked, (st [(0, vP1)] []).val r < Config.P := by
  refine ⟨?_, ⟨by decide +kernel, 0, by decide, by decide +kernel⟩, by decide +kernel⟩
  simp [illegalWord]

/-- A command that ends with E_RANGE and one that ends with E_ILLEGAL. -/
theorem witness_ErrorWritesNoResult :
    (∃ t, step (st [(0, vP)] [cmdEvent 0x00000114#32]) = .next t ∧ errField t.status ≠ 0#4) ∧
    (∃ t, step (st [(0, vP)] [cmdEvent 0x00000104#32]) = .next t ∧ errField t.status ≠ 0#4) :=
  ⟨⟨_, rfl, by decide +kernel⟩, ⟨_, rfl, by decide +kernel⟩⟩

/-- A command, a STATUS write with bit 8 and one without it, and a step that clears SERR. -/
theorem witness_StickyErrorRule :
    (∃ t, runCommand 0x00000104#32 State.reset = .next t) ∧
    (st [] [wr 0x204#12 0x100#32]).pending = .access (.write 4 0x204#12 0x100#32) :: [] ∧
    (st [] [wr 0x204#12 0xFFFFFEFF#32]).pending = .access (.write 4 0x204#12 0xFFFFFEFF#32) :: [] ∧
    (let s := { st [] [wr 0x204#12 0x100#32] with status := 0x102#32 }
     ∃ t, step s = .next t ∧ serrField s.status = true ∧ serrField t.status = false) :=
  ⟨⟨_, rfl⟩, by decide, by decide, _, rfl, by decide, by decide⟩

/-- A command word that sets RES, for each of the three commands. -/
theorem witness_OnlyThreeCommandsWriteRes :
    (∃ t, runCommand 0x00010201#32 (st [(0, vMax), (1, 1#256)] []) = .next t ∧ t.res ≠ 0#32) ∧
    (∃ t, runCommand 0x00010202#32 (st [(1, 1#256)] []) = .next t ∧ t.res ≠ 0#32) ∧
    (∃ t, runCommand 0x00010003#32 (st [(1, 1#256)] []) = .next t ∧ t.res ≠ 0#32) :=
  ⟨⟨_, rfl, by decide +kernel⟩, ⟨_, rfl, by decide +kernel⟩, ⟨_, rfl, by decide +kernel⟩⟩

/-- A command that answers a next state, a register that is not its destination, a command that writes RES and one that does
not, and window offsets that meet the last clause at its ends. -/
theorem witness_CommandFrame :
    (∃ t, exec (.mpiWideningMult 14 0 1) (st [(0, vMax), (1, vMax)] []) = .next t) ∧
    (13 : Reg) ∉ (Instr.mpiWideningMult 14 0 1).dests ∧ (Instr.mpiWideningMult 14 0 1).writesRes = false ∧
    (Instr.mpiCmp 0 1).writesRes = true ∧
    (∀ r ∈ (Instr.mpiWideningMult 14 0 1).dests, ¬ inRegister 0x1BF#12 r ∧ ¬ inRegister 0x200#12 r) ∧
    (¬ (0x204 ≤ (0x203#12).toNat ∧ (0x203#12).toNat < 0x208) ∧ ¬ (0x208 ≤ (0x20C#12).toNat ∧ (0x20C#12).toNat < 0x20C)) := by
  refine ⟨⟨_, rfl⟩, by decide, rfl, rfl, ?_, by decide, by decide⟩
  unfold inRegister
  decide

/-- Two states that agree on the sources and not elsewhere, in which the command succeeds. -/
theorem witness_ResultDependsOnSourcesOnly :
    (∀ r ∈ (Instr.f25519Add 2 0 1).sources, (st [(0, vTA), (1, vTC), (2, vP)] []).getX r = (st [(0, vTA), (1, vTC), (5, vTB)] []).getX r) ∧
    (∃ t, exec (.f25519Add 2 0 1) (st [(0, vTA), (1, vTC), (2, vP)] []) = .next t ∧ errField t.status = 0#4) ∧
    (∃ t, exec (.f25519Add 2 0 1) (st [(0, vTA), (1, vTC), (5, vTB)] []) = .next t) :=
  ⟨by decide +kernel, ⟨_, rfl, by decide +kernel⟩, ⟨_, rfl⟩⟩

/-- The fields of the highest word of an OP, and of a word with only the top RSV bit set: the hypotheses of WordsOf, both ways. -/
theorem witness_WordsOf :
    (let w := (0x000FFE04#32).toNat
     w % 2 ^ 8 = 0x04 ∧ w / 2 ^ 8 % 2 ^ 4 = (14 : Reg).val ∧ w / 2 ^ 12 % 2 ^ 4 = (15 : Reg).val ∧
       w / 2 ^ 16 % 2 ^ 4 = (15 : Reg).val ∧ w / 2 ^ 20 = 0 ∧ (14 : Reg).val % 2 = 0) ∧
    (let w := (0x80000013#32).toNat
     w % 2 ^ 8 = 0x13 ∧ w / 2 ^ 8 % 2 ^ 4 = (0 : Reg).val ∧ w / 2 ^ 12 % 2 ^ 4 = (0 : Reg).val ∧
       w / 2 ^ 16 % 2 ^ 4 = (0 : Reg).val ∧ ¬ w / 2 ^ 20 = 0) ∧
    (let w := (0x000F0116#32).toNat
     w % 2 ^ 8 = 0x16 ∧ w / 2 ^ 8 % 2 ^ 4 = (1 : Reg).val ∧ w / 2 ^ 12 % 2 ^ 4 = (0 : Reg).val ∧
       w / 2 ^ 16 % 2 ^ 4 = (15 : Reg).val ∧ ¬ (15 : Reg) = 0) := by decide +kernel

/-- The three orders of mpi_cmp, next to one another. -/
theorem witness_MpiCmpResult :
    (let s := st [(0, vMax), (1, vMax - 1#256)] []; s.val 0 > s.val 1) ∧ (let s := st [(0, vMax)] []; s.val 0 = s.val 0) ∧
    (let s := st [(0, vMax - 1#256), (1, vMax)] []; s.val 0 < s.val 1) := by decide +kernel

/-- The highest and the lowest even destination. -/
theorem witness_MpiWideningMultResult : (14 : Reg).val % 2 = 0 ∧ (0 : Reg).val % 2 = 0 := by decide

theorem witness_AddUndoesSubtract : (2 : Reg) ≠ 1 := by decide

/-- Both sources at P - 1; the first at P; the second at P: f25519_add, f25519_sub and f25519_mult. -/
theorem witness_F25519BinaryResults :
    (let s := st [(0, vP1), (1, vP1)] []; s.val 0 < Config.P ∧ s.val 1 < Config.P) ∧
    (Config.P ≤ (st [(0, vP)] []).val 0 ∨ Config.P ≤ (st [(0, vP)] []).val 1) ∧
    (Config.P ≤ (st [(1, vP)] []).val 0 ∨ Config.P ≤ (st [(1, vP)] []).val 1) := by decide +kernel

/-- The source at P - 1 and at P, and the last byte: f25519_inv, f25519_serialize, f25519_deserialize and the ladder's base point. -/
theorem witness_F25519UnaryResults :
    (st [(0, vP1)] []).val 0 < Config.P ∧ Config.P ≤ (st [(0, vP)] []).val 0 ∧ (31 : Nat) < 32 := by decide +kernel

/-- A field command that succeeds, and the ladder. -/
theorem witness_FieldResultsBelowP :
    ((Instr.f25519Reduce 1 0).fieldCommand = true ∧
      ∃ t, exec (.f25519Reduce 1 0) (st [(0, vMax)] []) = .next t ∧ errField t.status = 0#4) ∧
    (Instr.curve25519Ladder 2 0 1).fieldCommand = true ∧ (1 : Reg) ∈ (Instr.f25519Reduce 1 0).dests :=
  ⟨⟨rfl, _, rfl, by decide +kernel⟩, rfl, by decide⟩

theorem witness_FieldLaws :
    (st [(0, vP1)] []).val 0 < Config.P ∧ (st [(0, vP1)] []).val 1 = 0 ∧ (st [(0, vP1), (1, 1#256)] []).val 1 = 1 := by
  decide +kernel

/-- A nonzero element at the top of its range, and zero. -/
theorem witness_MultiplyByInverseIsOne :
    (1 : Reg) ≠ 0 ∧ (st [(0, vP1)] []).val 0 < Config.P ∧ (st [(0, vP1)] []).val 0 ≠ 0 ∧ (st [] []).val 0 = 0 ∧
      (st [] []).val 0 < Config.P := by decide +kernel

/-- Two scalars that differ in bits 254 and 255 only. -/
theorem witness_LadderIgnoresTopScalarBits :
    (0 : Reg) ≠ 1 ∧ (0 : Reg) ≠ 2 ∧ vAlice ^^^ (3#256 <<< 254) ≠ vAlice ∧
    (vAlice ^^^ (3#256 <<< 254)).toNat % 2 ^ 254 = (st [(0, vAlice)] []).val 0 % 2 ^ 254 := by decide +kernel

/-- Base point 0, and base point 1 with a scalar whose ladder ends with Z0 = 0 (L-C4). -/
theorem witness_DegenerateLadderGivesZero :
    (st [(0, vAlice)] []).val 1 = 0 ∧
    (let s := st [(0, vAlice), (1, 1#256)] []
     s.val 1 < Config.P ∧ (ladderPoints (s.getX 0) (s.val 1)).q0.Z = 0) := by decide +kernel

/-- The y-coordinate of a point of the curve with x-coordinate 9. -/
def vY9 : Nat := 14781619447589544791020593568409986887264606134616475288964881837755586237401

/-- 9 and that y lie on the curve: y^2 = 9^3 + 486662 * 9^2 + 9 modulo P. -/
theorem y9_equation : vY9 * vY9 % Config.P = (9 * 9 * 9 + 486662 * (9 * 9) + 9) % Config.P := by decide +kernel

/-- The point is not singular: 2y is not 0 modulo P. -/
theorem y9_double_ne_zero : 2 * vY9 % Config.P ≠ 0 := by decide +kernel

theorem nonsingular_nine : montgomeryCurve.Nonsingular ((9 : Nat) : ZMod Config.P) (vY9 : ZMod Config.P) := by
  rw [WeierstrassCurve.Affine.nonsingular_iff, WeierstrassCurve.Affine.equation_iff]
  refine ⟨?_, Or.inr ?_⟩
  · have h := (ZMod.natCast_eq_natCast_iff' _ _ Config.P).2 y9_equation
    push_cast at h ⊢
    simp only [montgomeryCurve]
    linear_combination h
  · intro h
    apply y9_double_ne_zero
    have h' : ((2 * vY9 : Nat) : ZMod Config.P) = ((0 : Nat) : ZMod Config.P) := by
      push_cast
      simp only [montgomeryCurve] at h
      linear_combination h
    have := (ZMod.natCast_eq_natCast_iff' _ _ Config.P).1 h'
    simpa using this

/-- A point of the curve with x-coordinate 9, which is not 0, and Z = 1. -/
theorem witness_LadderInvariant [Fact (Nat.Prime Config.P)] :
    montgomeryCurve.Nonsingular ((9 : Nat) : ZMod Config.P) (vY9 : ZMod Config.P) ∧ ((9 : Nat) : ZMod Config.P) ≠ 0 ∧
      (254 : Nat) ≤ 254 := by
  refine ⟨nonsingular_nine, fun h => ?_, le_refl _⟩
  have h' : ((9 : Nat) : ZMod Config.P) = ((0 : Nat) : ZMod Config.P) := by rw [h]; simp
  exact absurd ((ZMod.natCast_eq_natCast_iff' _ _ Config.P).1 h') (by decide +kernel)

/-- The modulus is prime, so the hypothesis on P is met. -/
theorem witness_primeModulus : Fact (Nat.Prime Config.P) := ⟨Laws.prime_P⟩

/-- Ta = (1 : 0), Td = (9 : 1): the points 0 and B, whose difference is B. -/
theorem witness_LadderStepDoublesAndAdds [Fact (Nat.Prime Config.P)] :
    ((9 : Nat) : ZMod Config.P) ≠ 0 ∧ represents ⟨1, 0⟩ (0 : montgomeryCurve.Point) ∧
    represents ⟨9, 1⟩ (WeierstrassCurve.Affine.Point.some _ _ nonsingular_nine) ∧
    WeierstrassCurve.Affine.Point.some _ _ nonsingular_nine - (0 : montgomeryCurve.Point) =
      WeierstrassCurve.Affine.Point.some _ _ nonsingular_nine := by
  refine ⟨witness_LadderInvariant.2.1, ?_, ?_, sub_zero _⟩
  · show ((0 : Nat) : ZMod Config.P) = 0 ∧ ((1 : Nat) : ZMod Config.P) ≠ 0
    simp
  · show ((1 : Nat) : ZMod Config.P) ≠ 0 ∧ ((9 : Nat) : ZMod Config.P) = ((9 : Nat) : ZMod Config.P) * ((1 : Nat) : ZMod Config.P)
    simp

/-- The base point 9 of the published vectors, in a register. -/
theorem witness_LadderComputesScalarMultiple :
    (st [(0, vAlice), (1, 9#256)] []).val 1 = 9 ∧ (st [(0, vAlice), (1, 9#256)] []).val 1 < Config.P ∧
    montgomeryCurve.Nonsingular (((st [(0, vAlice), (1, 9#256)] []).val 1 : Nat) : ZMod Config.P) (vY9 : ZMod Config.P) := by
  have h : (st [(0, vAlice), (1, 9#256)] []).val 1 = 9 := by decide +kernel
  refine ⟨h, by decide +kernel, ?_⟩
  rw [h]
  exact nonsingular_nine

/-- The largest 256-bit value, and more passes than needed. -/
theorem witness_FinalReduceIsMod : 2 ^ 256 - 1 < 2 ^ 256 ∧ (2 : Nat) ≤ 2 := by decide

/-- Both operands at P - 1, and the largest single digit. -/
theorem witness_AddAndSubByReduction_MultByFolding :
    Config.P - 1 < Config.P ∧ 0 < Config.P ∧ 2 ^ 32 - 1 < 2 ^ 32 := by decide +kernel

/-- The reserved part of the window at its ends. -/
theorem witness_WindowReadsRegisters : 0x210 ≤ (0x210#12).toNat ∧ 0x210 ≤ (0xFFC#12).toNat ∧ (31 : Nat) < 32 := by decide

theorem witness_HostReadHasNoSideEffect :
    (st [] [rd 0x1FC#12]).pending = .access (.read 4 0x1FC#12) :: [] ∧ (0x1FC#12).toNat % 4 = 0 := by decide

/-- The last digit of x15, read and written. -/
theorem witness_DigitAccess :
    (st [] [rd 0x1FC#12]).pending =
      .access (.read 4 (BitVec.ofNat 12 (0x20 * (15 : Reg).val + 4 * (7 : DigitIx).val))) :: [] ∧
    (st [] [wr 0x1FC#12 7#32]).pending =
      .access (.write 4 (BitVec.ofNat 12 (0x20 * (15 : Reg).val + 4 * (7 : DigitIx).val)) 7#32) :: [] ∧
    (6 : DigitIx) ≠ 7 ∧ (14 : Reg) ≠ 15 := by decide

/-- The first and last reserved word read; RES, ID and the last reserved word written. -/
theorem witness_ReservedAndReadOnlyAccess :
    ((0x210#12).toNat % 4 = 0 ∧ 0x210 ≤ (0x210#12).toNat ∧
      (st [] [rd 0x210#12]).pending = .access (.read 4 0x210#12) :: []) ∧
    ((0xFFC#12).toNat % 4 = 0 ∧ 0x210 ≤ (0xFFC#12).toNat) ∧
    ((0x208#12).toNat % 4 = 0 ∧ 0x208 ≤ (0x208#12).toNat ∧
      (st [] [wr 0x208#12 7#32]).pending = .access (.write 4 0x208#12 7#32) :: []) ∧
    ((0x20C#12).toNat % 4 = 0 ∧ 0x208 ≤ (0x20C#12).toNat) := by decide

theorem witness_CmdWriteAndReadBack :
    (st [] [wr 0x200#12 0xFFFFFFFF#32]).pending = .access (.write 4 0x200#12 0xFFFFFFFF#32) :: [] ∧
    (st [] [rd 0x200#12]).pending = .access (.read 4 0x200#12) :: [] := by decide

theorem witness_WindowIsLittleEndian : (0xFFC#12).toNat % 4 = 0 ∧ (3 : Nat) < 4 ∧ (31 : Nat) < 32 := by decide

theorem witness_MessagesRoundTrip :
    (0x09#8 :: List.replicate 31 0xFF#8).length = 32 ∧
    (st [] (scriptWrmsg 15 (0x09#8 :: List.replicate 31 0xFF#8) ++ [rd 0x204#12])).pending =
      scriptWrmsg 15 (0x09#8 :: List.replicate 31 0xFF#8) ++ [rd 0x204#12] := ⟨rfl, rfl⟩

/-- Two instances; the second performs a digit write. -/
theorem witness_InstancesShareNothing :
    ∃ q, platformStep 1 [⟨0x0, State.reset⟩, ⟨0x1000, st [] [wr 0x000#12 1#32]⟩] = some q := ⟨_, rfl⟩

/-- Two masters that write x0 and x1, the second one's access in between. -/
theorem witness_DisjointMastersCommute :
    let l1 : List (Reg × DigitIx × Word) := [(0, 0, 1#32), (0, 1, 2#32)]
    let l2 : List (Reg × DigitIx × Word) := [(1, 0, 3#32)]
    (∀ e1 ∈ l1, ∀ e2 ∈ l2, e1.1 ≠ e2.1) ∧
    Interleaving (digitWrites l1) (digitWrites l2) [wr 0x000#12 1#32, wr 0x020#12 3#32, wr 0x004#12 2#32] :=
  ⟨by simp, by
    have h1 : digitWrites [(0, 0, 1#32), (0, 1, 2#32)] = [wr 0x000#12 1#32, wr 0x004#12 2#32] := by decide
    have h2 : digitWrites [(1, 0, 3#32)] = [wr 0x020#12 3#32] := by decide
    rw [h1, h2]
    exact .left _ (.right _ (.left _ .nil))⟩

end Sys2Proof.Tests
end

/-! PROOF. What the decoder, a command and a step can do, said once (spec/30_encoding.md R77, R78; spec/10_state.md R27 to R29;
spec/20_memory.md R52, R53, R58, R62), and the statements about the state's registers (spec/10_state.md) settled from that. -/

/-! ### The decoder inverted -/

namespace Sys2Proof

/-- What a three-operand row of the decoder answers is encoded by the word it reads. -/
theorem encode_of_decodeDAB {w : Word} {op : BitVec 8} {mk : Reg → Reg → Reg → Instr} {i : Instr}
    (hrsv : rsvField w = 0#12) (hop : opField w = op)
    (hwf : (mk (rdField w) (raField w) (rbField w)).wellFormed = true)
    (henc : ∀ rd ra rb, encode (mk rd ra rb) = commandWord op rd ra rb) (h : decodeDAB w mk = .ok i) :
    i.wellFormed = true ∧ encode i = w := by
  cases h
  refine ⟨hwf, ?_⟩
  rw [henc, ← hop, commandWord_fields w hrsv]

/-- What a two-operand row of the decoder answers is encoded by the word it reads. -/
theorem encode_of_decodeDA {w : Word} {op : BitVec 8} {mk : Reg → Reg → Instr} {i : Instr}
    (hrsv : rsvField w = 0#12) (hop : opField w = op) (hwf : (mk (rdField w) (raField w)).wellFormed = true)
    (henc : ∀ rd ra, encode (mk rd ra) = commandWord op rd ra 0) (h : decodeDA w mk = .ok i) :
    i.wellFormed = true ∧ encode i = w := by
  unfold decodeDA at h
  split at h
  case isTrue hrb =>
    cases h
    refine ⟨hwf, ?_⟩
    rw [henc, ← hop, ← hrb, commandWord_fields w hrsv]
  case isFalse => cases h

/-- The row of mpi_cmp, whose RD must be 0. -/
theorem encode_mpiCmp_fields {w : Word} (hrsv : rsvField w = 0#12) (hop : opField w = 0x03#8) (hrd : rdField w = 0) :
    encode (.mpiCmp (raField w) (rbField w)) = w := by
  rw [encode, ← hop, ← hrd, commandWord_fields w hrsv]

/-- A word that decodes is the encoding of the command, which is well-formed (R72, R77). -/
theorem encode_of_decode {w : Word} {i : Instr} (h : decode w = .ok i) : i.wellFormed = true ∧ encode i = w := by
  unfold decode at h
  obtain ⟨-, h⟩ | ⟨hrsv, h⟩ := ite_eq_iff.1 h
  · cases h
  rw [not_not] at hrsv
  obtain ⟨hop, h⟩ | ⟨-, h⟩ := ite_eq_iff.1 h
  · exact encode_of_decodeDAB hrsv hop rfl (fun _ _ _ => rfl) h
  obtain ⟨hop, h⟩ | ⟨-, h⟩ := ite_eq_iff.1 h
  · exact encode_of_decodeDAB hrsv hop rfl (fun _ _ _ => rfl) h
  obtain ⟨hop, h⟩ | ⟨-, h⟩ := ite_eq_iff.1 h
  · obtain ⟨hrd, h⟩ | ⟨-, h⟩ := ite_eq_iff.1 h
    · cases h; exact ⟨rfl, encode_mpiCmp_fields hrsv hop hrd⟩
    · cases h
  obtain ⟨hop, h⟩ | ⟨-, h⟩ := ite_eq_iff.1 h
  · obtain ⟨heven, h⟩ | ⟨-, h⟩ := ite_eq_iff.1 h
    · exact encode_of_decodeDAB (mk := .mpiWideningMult) hrsv hop heven (fun _ _ _ => rfl) h
    · cases h
  obtain ⟨hop, h⟩ | ⟨-, h⟩ := ite_eq_iff.1 h
  · exact encode_of_decodeDA hrsv hop rfl (fun _ _ => rfl) h
  obtain ⟨hop, h⟩ | ⟨-, h⟩ := ite_eq_iff.1 h
  · exact encode_of_decodeDAB hrsv hop rfl (fun _ _ _ => rfl) h
  obtain ⟨hop, h⟩ | ⟨-, h⟩ := ite_eq_iff.1 h
  · exact encode_of_decodeDAB hrsv hop rfl (fun _ _ _ => rfl) h
  obtain ⟨hop, h⟩ | ⟨-, h⟩ := ite_eq_iff.1 h
  · exact encode_of_decodeDAB hrsv hop rfl (fun _ _ _ => rfl) h
  obtain ⟨hop, h⟩ | ⟨-, h⟩ := ite_eq_iff.1 h
  · exact encode_of_decodeDA hrsv hop rfl (fun _ _ => rfl) h
  obtain ⟨hop, h⟩ | ⟨-, h⟩ := ite_eq_iff.1 h
  · exact encode_of_decodeDA hrsv hop rfl (fun _ _ => rfl) h
  obtain ⟨hop, h⟩ | ⟨-, h⟩ := ite_eq_iff.1 h
  · exact encode_of_decodeDA hrsv hop rfl (fun _ _ => rfl) h
  obtain ⟨hop, h⟩ | ⟨-, h⟩ := ite_eq_iff.1 h
  · exact encode_of_decodeDAB hrsv hop rfl (fun _ _ _ => rfl) h
  cases h

end Sys2Proof

namespace Sys2Proof.Machine

open Sys2Proof.Config (P)

/-- A command word with a legal OP breaks none of the conditions of R77 when its unused fields are 0 and the
destination of mpi_widening_mult is even. -/
theorem not_illegalWord_commandWord {op : BitVec 8} {rd ra rb : Reg}
    (hop : op.toNat ∈ [0x01, 0x02, 0x03, 0x04, 0x10, 0x11, 0x12, 0x13, 0x14, 0x15, 0x16, 0x20])
    (hcmp : op.toNat ≠ 0x03 ∨ rd = 0) (hda : op.toNat ∉ [0x10, 0x14, 0x15, 0x16] ∨ rb = 0)
    (hpair : op.toNat ≠ 0x04 ∨ evenPair rd = true) : ¬ illegalWord (commandWord op rd ra rb).toNat := by
  have hopw : (commandWord op rd ra rb).toNat % 2 ^ 8 = op.toNat := by
    rw [← opField_toNat, opField_commandWord]
  have hrsv : (commandWord op rd ra rb).toNat / 2 ^ 20 = 0 := by
    rw [← rsvField_toNat, rsvField_commandWord]; rfl
  have hrd : (commandWord op rd ra rb).toNat / 2 ^ 8 % 2 ^ 4 = rd.val := by
    rw [← rdField_val, rdField_commandWord]
  have hrb : (commandWord op rd ra rb).toNat / 2 ^ 16 % 2 ^ 4 = rb.val := by
    rw [← rbField_val, rbField_commandWord]
  unfold illegalWord
  rw [hopw, hrsv, hrd, hrb]
  rintro (h | h | ⟨h, h0⟩ | ⟨h, h0⟩ | ⟨h, hodd⟩)
  · exact h hop
  · exact h rfl
  · exact h0 (congrArg Fin.val (hcmp.resolve_left (not_not.2 h)))
  · exact h0 (congrArg Fin.val (hda.resolve_left (not_not.2 h)))
  · have heven : rd.val % 2 = 0 := by simpa [evenPair] using hpair.resolve_left (not_not.2 h)
    omega

/-- The encoding of a well-formed command is a legal word (R77). -/
theorem not_illegalWord_encode (i : Instr) (h : i.wellFormed = true) : ¬ illegalWord (encode i).toNat := by
  cases i with
  | mpiWideningMult => exact not_illegalWord_commandWord (by decide) (.inl (by decide)) (.inl (by decide)) (.inr h)
  | mpiCmp => exact not_illegalWord_commandWord (by decide) (.inr rfl) (.inl (by decide)) (.inl (by decide))
  | f25519Reduce | f25519Inv | f25519Serialize | f25519Deserialize =>
    exact not_illegalWord_commandWord (by decide) (.inl (by decide)) (.inr rfl) (.inl (by decide))
  | mpiAdd | mpiSubBorrow | f25519Add | f25519Sub | f25519Mult | curve25519Ladder =>
    exact not_illegalWord_commandWord (by decide) (.inl (by decide)) (.inl (by decide)) (.inl (by decide))

/-- A word that decodes is legal (R77). -/
theorem not_illegalWord_of_decode {w : Word} {i : Instr} (h : decode w = .ok i) : ¬ illegalWord w.toNat := by
  obtain ⟨hwf, henc⟩ := encode_of_decode h
  exact henc ▸ not_illegalWord_encode i hwf

/-! ### How a command word ends -/

theorem runCommand_of_ok {w : Word} {i : Instr} (h : decode w = .ok i) (s : State) : runCommand w s = exec i s := by
  simp [runCommand, h]

theorem runCommand_of_error {w : Word} {e : Illegal} (h : decode w = .error e) (s : State) :
    runCommand w s = .next (s.raise .illegal) := by
  simp [runCommand, h]

/-- Every command word answers a next state: it is a command that ends in one of its ways, or no command and E_ILLEGAL. -/
theorem runCommand_ending (w : Word) (s : State) :
    ∃ t, runCommand w s = .next t ∧
      ((∃ i, decode w = .ok i ∧ Ending i s t) ∨ (∃ e, decode w = .error e) ∧ t = s.raise .illegal) := by
  cases hd : decode w with
  | ok i =>
    obtain ⟨t, ht, hend⟩ := exec_ending i s
    exact ⟨t, (runCommand_of_ok hd s).trans ht, .inl ⟨i, rfl, hend⟩⟩
  | error e => exact ⟨_, runCommand_of_error hd s, .inr ⟨⟨e, rfl⟩, rfl⟩⟩

/-- A command ends by writing one code into STATUS (R27, R28), and it leaves CMD_LAST and the waiting events alone. -/
theorem Ending.status_and_frame {i : Instr} {s t : State} (h : Ending i s t) :
    (∃ c, t.status = statusAfter c s.status) ∧ t.cmdLast = s.cmdLast ∧ t.pending = s.pending := by
  cases h with
  | illegal => exact ⟨⟨.illegal, rfl⟩, rfl, rfl⟩
  | range => exact ⟨⟨.range, rfl⟩, rfl, rfl⟩
  | done u _ _ _ _ _ hst hcmd hpend => exact ⟨⟨.ok, by simp [hst]⟩, by simp [hcmd], by simp [hpend]⟩

/-- The same of any command word, legal or not (R27, R79). -/
theorem runCommand_status_and_frame {w : Word} {s t : State} (h : runCommand w s = .next t) :
    (∃ c, t.status = statusAfter c s.status) ∧ t.cmdLast = s.cmdLast ∧ t.pending = s.pending := by
  obtain ⟨u, hu, hend⟩ := runCommand_ending w s
  obtain rfl : t = u := by rw [h] at hu; cases hu; rfl
  rcases hend with ⟨i, -, hend⟩ | ⟨-, rfl⟩
  · exact hend.status_and_frame
  · exact ⟨⟨.illegal, rfl⟩, rfl, rfl⟩

/-- A well-formed command with a checked source that is not below P ends with E_RANGE (R131, R201). -/
theorem Ending.errField_of_le {i : Instr} {s t : State} (h : Ending i s t) (hwf : i.wellFormed = true)
    (hP : ∃ r ∈ i.checked, P ≤ s.val r) : errField t.status = 2#4 := by
  cases h with
  | illegal hill => rw [hwf] at hill; cases hill
  | range => simp [ErrorCode.bits]
  | done u _ hc =>
    obtain ⟨r, hr, hle⟩ := hP
    exact absurd (hc r hr) (not_lt.2 hle)

/-- A well-formed command whose checked sources are all below P ends with code 0 (R201). -/
theorem Ending.errField_of_lt {i : Instr} {s t : State} (h : Ending i s t) (hwf : i.wellFormed = true)
    (hP : ∀ r ∈ i.checked, s.val r < P) : errField t.status = 0#4 := by
  cases h with
  | illegal hill => rw [hwf] at hill; cases hill
  | range _ r hr hle => exact absurd (hP r hr) (not_lt.2 hle)
  | done => simp [ErrorCode.bits]

/-- Settles O15: each ending writes its code, and a word that is illegal does not decode. -/
theorem commandEndsWithItsCode : Obligations.CommandEndsWithItsCode := by
  intro w s
  obtain ⟨t, ht, ⟨i, hd, hend⟩ | ⟨⟨e, hd⟩, rfl⟩⟩ := runCommand_ending w s
  · obtain ⟨hwf, -⟩ := encode_of_decode hd
    refine ⟨t, ht, fun hill => absurd hill (not_illegalWord_of_decode hd), fun j hj => ?_⟩
    obtain rfl : i = j := by rw [hd] at hj; cases hj; rfl
    exact ⟨hend.errField_of_le hwf, hend.errField_of_lt hwf⟩
  · exact ⟨_, ht, fun _ => by simp [ErrorCode.bits], fun j hj => by rw [hd] at hj; cases hj⟩

/-! ### What a step can do -/

/-- The aligned offset of a word is its only one (R53). -/
theorem eq_of_aligned_of_div {o p : Offset} (ho : aligned o = true) (hp : aligned p = true)
    (h : o.toNat / 4 = p.toNat / 4) : o = p := by
  simp only [aligned, beq_iff_eq] at ho hp
  exact BitVec.eq_of_toNat_eq (by omega)

theorem eq_cmdOffset {o : Offset} (ha : aligned o = true) (h : windowReg o = .cmd) : o = cmdOffset := by
  unfold windowReg at h
  split_ifs at h with _ hword
  exact eq_of_aligned_of_div ha (by decide) hword

theorem eq_statusOffset {o : Offset} (ha : aligned o = true) (h : windowReg o = .status) : o = statusOffset := by
  unfold windowReg at h
  split_ifs at h with _ _ hword
  exact eq_of_aligned_of_div ha (by decide) hword

/-- What a step did, by the event it took (R62). -/
inductive Stepped (s : State) : State → Prop where
  /-- no event waits (R214) -/
  | idle (h : s.pending = []) : Stepped s s
  /-- an aligned read puts its word on the bus (R59, R60) -/
  | read (o : Offset) (rest : List HostEvent) (h : s.pending = .access (.read 4 o) :: rest) (ha : aligned o = true) :
      Stepped s { s with pending := rest, reply := some (s.memRead o) }
  /-- a write of one digit of an operand register (R59) -/
  | digitWrite (o : Offset) (v : Word) (i : Reg) (j : DigitIx) (rest : List HostEvent)
      (h : s.pending = .access (.write 4 o v) :: rest) (ha : aligned o = true) (ho : windowReg o = .digit i j) :
      Stepped s ({ s with pending := rest, reply := none }.setX i (setDigit (s.getX i) j v))
  /-- a write to CMD runs the word with CMD_LAST holding it (R29, R58) -/
  | cmdWrite (w : Word) (rest : List HostEvent) (t : State) (h : s.pending = cmdEvent w :: rest)
      (ht : runCommand w { s with pending := rest, reply := none, cmdLast := w } = .next t) : Stepped s t
  /-- a write to STATUS (R28) -/
  | statusWrite (v : Word) (rest : List HostEvent) (h : s.pending = .access (.write 4 statusOffset v) :: rest) :
      Stepped s { s with pending := rest, reply := none, status := statusWrite v s.status }
  /-- a write to RES, ID or a reserved word has no effect (R52) -/
  | ignoredWrite (o : Offset) (v : Word) (rest : List HostEvent) (h : s.pending = .access (.write 4 o v) :: rest)
      (ha : aligned o = true) (ho : windowReg o = .res ∨ windowReg o = .id ∨ windowReg o = .reserved) :
      Stepped s { s with pending := rest, reply := none }
  /-- the reset input between accesses (R230) -/
  | reset (rest : List HostEvent) (h : s.pending = .reset :: rest) :
      Stepped s { s with pending := rest, reply := none }.applyReset
  /-- the reset input during a command (R232) -/
  | cutByReset (w : Word) (rest : List HostEvent) (h : s.pending = .cmdCutByReset w :: rest) :
      Stepped s (cutByReset { s with pending := rest, reply := none })

/-- A read that is not refused is an aligned 32-bit one (R53). -/
theorem read_of_hostAccess {width : Nat} {o : Offset} {s t : State} (h : hostAccess (.read width o) s = .next t) :
    width = 4 ∧ aligned o = true ∧ t = { s with reply := some (s.memRead o) } := by
  simp only [hostAccess] at h
  split_ifs at h with hw ha
  cases h
  exact ⟨not_not.1 hw, ha, rfl⟩

/-- A write that is not refused is an aligned 32-bit one (R53). -/
theorem write_of_hostAccess {width : Nat} {o : Offset} {v : Word} {s t : State}
    (h : hostAccess (.write width o v) s = .next t) : width = 4 ∧ aligned o = true ∧ memWrite o v s = .next t := by
  simp only [hostAccess] at h
  split_ifs at h with hw ha
  exact ⟨not_not.1 hw, ha, h⟩

/-- A step that performs a write, by the register that stands at the offset (R51, R52). -/
theorem Stepped.of_memWrite {s t : State} {o : Offset} {v : Word} {rest : List HostEvent}
    (hp : s.pending = .access (.write 4 o v) :: rest) (ha : aligned o = true)
    (h : memWrite o v { s with pending := rest, reply := none } = .next t) : Stepped s t := by
  unfold memWrite at h
  cases ho : windowReg o with
  | digit i j => rw [ho] at h; cases h; exact .digitWrite o v i j rest hp ha ho
  | cmd => rw [ho] at h; obtain rfl := eq_cmdOffset ha ho; exact .cmdWrite v rest t hp h
  | status => rw [ho] at h; obtain rfl := eq_statusOffset ha ho; cases h; exact .statusWrite v rest hp
  | res => rw [ho] at h; cases h; exact .ignoredWrite o v rest hp ha (.inl ho)
  | id => rw [ho] at h; cases h; exact .ignoredWrite o v rest hp ha (.inr (.inl ho))
  | reserved => rw [ho] at h; cases h; exact .ignoredWrite o v rest hp ha (.inr (.inr ho))

/-- What a step answers comes about in one of these ways. -/
theorem stepped_of_step {s t : State} (h : step s = .next t) : Stepped s t := by
  cases hp : s.pending with
  | nil => rw [step_nil hp] at h; cases h; exact .idle hp
  | cons e rest =>
    rw [step_cons hp] at h
    cases e with
    | access a =>
      cases a with
      | read width o =>
        obtain ⟨rfl, ha, rfl⟩ := read_of_hostAccess h
        exact .read o rest hp ha
      | write width o v =>
        obtain ⟨rfl, ha, hw⟩ := write_of_hostAccess h
        exact .of_memWrite hp ha hw
    | reset => cases h; exact .reset rest hp
    | cmdCutByReset w => cases h; exact .cutByReset w rest hp

/-! ### The sticky error bit -/

/-- A host write of STATUS clears bit 8 when the written word has it, and keeps every other bit (R28). -/
theorem getLsbD_statusWrite (v status : Word) (k : Nat) (hk : k < 32) :
    (statusWrite v status).getLsbD k = if k = 8 ∧ v.getLsbD 8 = true then false else status.getLsbD k := by
  have hmask : ∀ k < 32, (0xFFFFFEFF#32).getLsbD k = decide (k ≠ 8) := by decide
  unfold statusWrite
  split
  case isTrue hv => by_cases h8 : k = 8 <;> simp [hmask k hk, h8, hv]
  case isFalse hv => rw [if_neg (fun h => hv h.2)]

/-- A STATUS write that clears SERR has bit 8 (R28). -/
theorem getLsbD_of_serrField_cleared {v status : Word} (h1 : serrField status = true)
    (h0 : serrField (statusWrite v status) = false) : v.getLsbD 8 = true := by
  unfold serrField at h0 h1
  rw [getLsbD_statusWrite v status 8 (by decide), h1] at h0
  simpa using h0

/-- A command sets SERR exactly when its code is not 0, and never clears it (R28). -/
theorem serrField_of_runCommand {w : Word} {s t : State} (h : runCommand w s = .next t) :
    serrField t.status = (serrField s.status || errField t.status != 0#4) := by
  obtain ⟨⟨c, hc⟩, -⟩ := runCommand_status_and_frame h
  rw [hc, serrField_statusAfter, errField_statusAfter]
  cases c <;> rfl

/-- A write to STATUS that arrives is performed (R28, R58). -/
theorem step_statusWrite {s : State} {v : Word} {rest : List HostEvent}
    (h : s.pending = .access (.write 4 statusOffset v) :: rest) :
    step s = .next { s with pending := rest, reply := none, status := statusWrite v s.status } := by
  rw [step_cons h]
  rfl

/-- A step that clears SERR took a write of bit 8 to STATUS or a reset (R28, R37). -/
theorem Stepped.event_of_serrField_cleared {s t : State} (h : Stepped s t) (h1 : serrField s.status = true)
    (h0 : serrField t.status = false) :
    ∃ e rest, s.pending = e :: rest ∧
      ((∃ o v, e = .access (.write 4 o v) ∧ o = statusOffset ∧ v.getLsbD 8 = true) ∨ e = .reset ∨
        ∃ w, e = .cmdCutByReset w) := by
  cases h with
  | idle | read | digitWrite | ignoredWrite => exact absurd (h1.symm.trans h0) (by decide)
  | cmdWrite w rest _ _ ht =>
    rw [serrField_of_runCommand ht] at h0
    exact absurd (Bool.or_eq_false_iff.1 h0).1 (by simp [h1])
  | statusWrite v rest hp => exact ⟨_, rest, hp, .inl ⟨_, v, rfl, rfl, getLsbD_of_serrField_cleared h1 h0⟩⟩
  | reset rest hp => exact ⟨_, rest, hp, .inr (.inl rfl)⟩
  | cutByReset w rest hp => exact ⟨_, rest, hp, .inr (.inr ⟨w, rfl⟩)⟩

/-- Settles O17: a command's code decides SERR, and of all events only a STATUS write and a reset clear it. -/
theorem stickyErrorRule : Obligations.StickyErrorRule := by
  refine ⟨fun s t w h => serrField_of_runCommand h, fun s v rest hp => ?_, fun s t h h1 h0 => ?_⟩
  · exact ⟨_, step_statusWrite hp, getLsbD_statusWrite v s.status, rfl, rfl, rfl⟩
  · exact (stepped_of_step h).event_of_serrField_cleared h1 h0

/-! ### The single registers of the window -/

@[simp] theorem memRead_cmd (s : State) : s.memRead cmdOffset = s.cmdLast := by
  rw [State.memRead, windowReg_cmd, State.readReg]

@[simp] theorem memRead_res (s : State) : s.memRead resOffset = s.res := by
  rw [State.memRead, windowReg_res, State.readReg]

@[simp] theorem memRead_id (s : State) : s.memRead idOffset = Config.coreId := by
  rw [State.memRead, windowReg_id, State.readReg]

/-- An aligned read that arrives puts its word on the bus and changes nothing else (R59, R60). -/
theorem step_read {s : State} {o : Offset} {rest : List HostEvent} (h : s.pending = .access (.read 4 o) :: rest)
    (ha : aligned o = true) : step s = .next { s with pending := rest, reply := some (s.memRead o) } := by
  rw [step_cons h]
  simp only [hostEvent, hostAccess, ha]
  rfl

@[simp] theorem getX_reset (r : Reg) : State.reset.getX r = 0#256 := by
  simp [State.getX, State.reset]

/-- Settles O1: the fields of the reset state, read through the window where the rule says so. -/
theorem resetStateHoldsSpecValues : Obligations.ResetStateHoldsSpecValues :=
  ⟨getX_reset, memRead_res _, rfl, rfl, rfl, rfl, memRead_id _⟩

/-- Settles O56: a command leaves the CMD_LAST that its write has set, and a read of CMD answers it. -/
theorem cmdWriteAndReadBack : Obligations.CmdWriteAndReadBack := by
  refine fun s w rest => ⟨fun hp => ?_, fun hp => ?_⟩
  · obtain ⟨t, ht, -⟩ := runCommand_ending w { s with pending := rest, reply := none, cmdLast := w }
    obtain ⟨-, hcmd, -⟩ := runCommand_status_and_frame ht
    exact ⟨t, (step_cmdEvent hp).trans ht, ht, hcmd⟩
  · have hread : s.memRead 0x200#12 = s.cmdLast := memRead_cmd s
    rw [step_read hp (by decide), hread]

end Sys2Proof.Machine

/-! PROOF. Host accesses to the window: which are refused, what an aligned read and write do at each word, and the bytes of the
window (spec/20_memory.md R52, R53, R55, R59). -/

namespace Sys2Proof.Machine

theorem aligned_iff {o : Offset} : aligned o = true ↔ o.toNat % 4 = 0 := by simp [aligned]

/-! ### Refused and performed accesses -/

/-- A read or write that is not an aligned 32-bit one is refused by name (R53). -/
theorem hostAccess_refused {a : HostAccess} {width : Nat} {o : Offset} {v : Word}
    (ha : a = .read width o ∨ a = .write width o v) (h : ¬ (width = 4 ∧ aligned o = true)) (s : State) :
    hostAccess a s = .refused (.accessWidth width) ∨ hostAccess a s = .refused (.accessMisaligned o) := by
  by_cases hw : width = 4
  · have hal : aligned o = false := Bool.eq_false_iff.2 fun hal => h ⟨hw, hal⟩
    right; rcases ha with rfl | rfl <;> simp [hostAccess, hw, hal]
  · left; rcases ha with rfl | rfl <;> simp [hostAccess, hw]

/-- An aligned write that arrives is performed on the register that stands at its offset (R52, R58). -/
theorem step_write {s : State} {o : Offset} {v : Word} {rest : List HostEvent}
    (h : s.pending = .access (.write 4 o v) :: rest) (ha : aligned o = true) :
    step s = memWrite o v { s with pending := rest, reply := none } := by
  rw [step_cons h]
  simp [hostEvent, hostAccess, ha]

/-- An aligned write answers a next state at every word of the window, and leaves the waiting events alone (R53). -/
theorem memWrite_next (o : Offset) (v : Word) (s : State) : ∃ t, memWrite o v s = .next t ∧ t.pending = s.pending := by
  unfold memWrite
  cases windowReg o with
  | cmd =>
    obtain ⟨t, ht, -⟩ := runCommand_ending v { s with cmdLast := v }
    obtain ⟨-, -, hpend⟩ := runCommand_status_and_frame ht
    exact ⟨t, ht, hpend⟩
  | digit | status | res | id | reserved => exact ⟨_, rfl, rfl⟩

/-- Settles O13: each refusal is a branch of the access, and an aligned access answers at every word of the window. -/
theorem unspecifiedAccessRefused : Obligations.UnspecifiedAccessRefused := by
  refine fun s width o v rest hp => ⟨fun h => ?_, fun ⟨hw, ho⟩ => ?_⟩
  · rw [← aligned_iff] at h
    rcases hp with hp | hp <;> rw [step_cons hp]
    · exact hostAccess_refused (v := v) (.inl rfl) h _
    · exact hostAccess_refused (.inr rfl) h _
  · subst hw
    rcases hp with hp | hp
    · exact ⟨_, step_read hp (aligned_iff.2 ho), rfl⟩
    · rw [step_write hp (aligned_iff.2 ho)]
      exact memWrite_next o v _

/-! ### Reserved and read-only words -/

/-- From RES on, no word of the window can be written (R51, R52). -/
theorem windowReg_of_readOnly {o : Offset} (h : 0x208 ≤ o.toNat) :
    windowReg o = .res ∨ windowReg o = .id ∨ windowReg o = .reserved := by
  unfold windowReg
  rw [if_neg (by omega), if_neg (by omega), if_neg (by omega)]
  split_ifs <;> simp

theorem memWrite_of_readOnly {o : Offset} (h : 0x208 ≤ o.toNat) (v : Word) (s : State) : memWrite o v s = .next s := by
  unfold memWrite
  rcases windowReg_of_readOnly h with ho | ho | ho <;> rw [ho]

theorem memRead_of_ge {o : Offset} (h : 0x210 ≤ o.toNat) (s : State) : s.memRead o = 0x00000000#32 := by
  rw [State.memRead, windowReg_of_ge o h, State.readReg]

/-- Settles O55: a reserved word reads as 0, and from 0x208 on there is no word to write. -/
theorem reservedAndReadOnlyAccess : Obligations.ReservedAndReadOnlyAccess := by
  refine fun s o v rest ho => ⟨fun h hp => ?_, fun h hp => ?_⟩
  · rw [step_read hp (aligned_iff.2 ho), memRead_of_ge h]
  · rw [step_write hp (aligned_iff.2 ho), memWrite_of_readOnly h]

/-! ### Digits -/

/-- An operand is its eight digits (R20). -/
theorem eq_of_digit_eq {v w : Operand} (h : ∀ j, digit v j = digit w j) : v = w := by
  refine BitVec.eq_of_getLsbD_eq fun k hk => ?_
  have hbit := congrArg (·.getLsbD (k % 32)) (h ⟨k / 32, by omega⟩)
  simpa [digit, Nat.mod_lt, Nat.div_add_mod] using hbit

/-- Writing the digit that stands there changes nothing (R59). -/
@[simp] theorem setDigit_digit_self (v : Operand) (j : DigitIx) : setDigit v j (digit v j) = v := by
  refine eq_of_digit_eq fun j' => ?_
  by_cases h : j' = j
  · rw [h, digit_setDigit_self]
  · exact digit_setDigit_of_ne _ _ _ _ h

@[simp] theorem State.setX_getX_self (s : State) (r : Reg) : s.setX r (s.getX r) = s := by
  simp [State.setX, State.getX]

@[simp] theorem memRead_digitOffset (s : State) (i : Reg) (j : DigitIx) :
    s.memRead (digitOffset i j) = digit (s.getX i) j := by
  rw [State.memRead, windowReg_digitOffset, State.readReg]

/-- A digit write that arrives and finds its digit in place changes no register (R59). -/
theorem step_digitWrite_of_digit_eq {s : State} {i : Reg} {j : DigitIx} {v : Word} {rest : List HostEvent}
    (hp : s.pending = .access (.write 4 (digitOffset i j) v) :: rest) (hv : digit (s.getX i) j = v) :
    step s = .next { s with pending := rest, reply := none } := by
  rw [step_digitWrite hp, ← hv, setDigit_digit_self]
  exact congrArg _ (State.setX_getX_self { s with pending := rest, reply := none } i)

/-- Settles O54: a digit is read at its word, a write of it sets that digit alone, and the repeated write finds it set. -/
theorem digitAccess : Obligations.DigitAccess := by
  refine ⟨fun s i j rest hp => ?_, fun s i j v rest hp => ?_⟩
  · have hread : s.memRead (BitVec.ofNat 12 (0x20 * i.val + 4 * j.val)) = (s.getX i).extractLsb' (32 * j.val) 32 :=
      memRead_digitOffset s i j
    rw [step_read hp (aligned_digitOffset i j), hread]
  · have hset : digit ((({ s with pending := rest, reply := none }).setX i (setDigit (s.getX i) j v)).getX i) j = v := by
      rw [State.getX_setX_self, digit_setDigit_self]
    refine ⟨_, step_digitWrite hp, hset, fun j' hj => ?_, fun i' hi => State.getX_setX_of_ne _ i i' _ hi,
      rfl, rfl, rfl, rfl, step_digitWrite_of_digit_eq hp hset⟩
    rw [State.getX_setX_self]
    exact digit_setDigit_of_ne _ j j' v hj

/-! ### Bytes -/

/-- What stands at an offset is decided by the word it lies in (R51). -/
theorem windowReg_congr {o p : Offset} (h : o.toNat / 4 = p.toNat / 4) : windowReg o = windowReg p := by
  have hlt : o.toNat < 0x200 ↔ p.toNat < 0x200 := by omega
  have hreg : o.toNat / 0x20 = p.toNat / 0x20 := by omega
  have hdigit : o.toNat % 0x20 / 4 = p.toNat % 0x20 / 4 := by omega
  simp only [windowReg, h, hlt, hreg, hdigit]

/-- Byte b of an operand is byte b mod 4 of its digit b / 4 (R55). -/
theorem wordByte_digit (v : Operand) {b : Nat} (hb : b < 32) :
    wordByte (digit v ⟨b / 4, by omega⟩) (b % 4) = operandByte v b := by
  unfold wordByte digit operandByte
  ext k hk
  have hin : 8 * (b % 4) + k < 32 := by omega
  have hpos : 32 * (b / 4) + (8 * (b % 4) + k) = 8 * b + k := by omega
  simp [hin, hpos]

/-- The window bytes of an operand register are its bytes, the lowest first (R55). -/
theorem windowByte_of_register (s : State) (n : Reg) {b : Nat} (hb : b < 32) :
    s.windowByte (BitVec.ofNat 12 (0x20 * n.val + b)) = operandByte (s.getX n) b := by
  have hn := n.isLt
  have ho : (BitVec.ofNat 12 (0x20 * n.val + b)).toNat = 0x20 * n.val + b := by
    rw [BitVec.toNat_ofNat]
    omega
  have hk : (0x20 * n.val + b) % 4 = b % 4 := by omega
  rw [State.windowByte, State.memRead, windowReg_of_register _ n b hb ho, State.readReg, ho, hk, wordByte_digit _ hb]

/-- Settles O57: the bytes of a word lie in that word, and a register's byte in the digit it belongs to. -/
theorem windowIsLittleEndian : Obligations.WindowIsLittleEndian := by
  refine fun s => ⟨fun o k ho hk => ?_, fun n b hb => windowByte_of_register s n hb⟩
  have hadd : (BitVec.ofNat 12 (o.toNat + k)).toNat = o.toNat + k := by
    rw [BitVec.toNat_ofNat]
    omega
  have hword : windowReg (BitVec.ofNat 12 (o.toNat + k)) = windowReg o := windowReg_congr (by omega)
  have hbyte : (o.toNat + k) % 4 = k := by omega
  rw [State.windowByte, State.memRead, hword, hadd, hbyte]
  rfl

end Sys2Proof.Machine

/-! PROOF. The command words are the legal words and nothing else (spec/30_encoding.md R72, R77, R78): the decoder reads every
encoding back, every legal word is an encoding, and an illegal word ends with E_ILLEGAL. -/

namespace Sys2Proof

/-- The decoder reads the encoding of a well-formed command back (R72, R76). -/
theorem decode_encode {i : Instr} (h : i.wellFormed = true) : decode (encode i) = .ok i := by
  cases i with
  | mpiWideningMult rd ra rb =>
    have heven : evenPair rd = true := h
    simp [decode, encode, decodeDAB, heven]
  | mpiCmp => simp [decode, encode]
  | f25519Reduce | f25519Inv | f25519Serialize | f25519Deserialize => simp [decode, encode, decodeDA]
  | mpiAdd | mpiSubBorrow | f25519Add | f25519Sub | f25519Mult | curve25519Ladder =>
    simp [decode, encode, decodeDAB]

/-- No two well-formed commands share a command word (R72). -/
theorem eq_of_encode_eq {i j : Instr} (hi : i.wellFormed = true) (hj : j.wellFormed = true) (h : encode i = encode j) :
    i = j := by
  exact Except.ok.inj ((decode_encode hi).symm.trans ((congrArg decode h).trans (decode_encode hj)))

end Sys2Proof

namespace Sys2Proof.Machine

/-- The conditions of R77 read on the fields of R71. -/
theorem not_illegalWord_iff_fields {w : Word} :
    ¬ illegalWord w.toNat ↔
      opField w ∈ [0x01#8, 0x02#8, 0x03#8, 0x04#8, 0x10#8, 0x11#8, 0x12#8, 0x13#8, 0x14#8, 0x15#8, 0x16#8, 0x20#8] ∧
      rsvField w = 0#12 ∧ (opField w = 0x03#8 → rdField w = 0) ∧
      (opField w ∈ [0x10#8, 0x14#8, 0x15#8, 0x16#8] → rbField w = 0) ∧
      (opField w = 0x04#8 → evenPair (rdField w) = true) := by
  have hmem (ops : List (BitVec 8)) : opField w ∈ ops ↔ (opField w).toNat ∈ ops.map BitVec.toNat :=
    (List.mem_map_of_injective BitVec.toNat_injective).symm
  rw [illegalWord, ← opField_toNat, ← rdField_val, ← rbField_val, ← rsvField_toNat, hmem, hmem]
  simp only [not_or, not_and, not_not, evenPair, beq_iff_eq, BitVec.toNat_eq, Fin.ext_iff, Nat.mod_two_not_eq_one]
  rfl

/-- A legal word is the encoding of a well-formed command (R77). -/
theorem exists_encode_eq_of_not_illegalWord {w : Word} (h : ¬ illegalWord w.toNat) :
    ∃ i : Instr, i.wellFormed = true ∧ encode i = w := by
  obtain ⟨hop, hrsv, hcmp, hda, hpair⟩ := not_illegalWord_iff_fields.1 h
  have hw := commandWord_fields w hrsv
  simp only [List.mem_cons, List.not_mem_nil, or_false] at hop
  rcases hop with hop | hop | hop | hop | hop | hop | hop | hop | hop | hop | hop | hop <;> rw [hop] at hw hda
  · exact ⟨.mpiAdd _ _ _, rfl, hw⟩
  · exact ⟨.mpiSubBorrow _ _ _, rfl, hw⟩
  · exact ⟨.mpiCmp _ _, rfl, hcmp hop ▸ hw⟩
  · exact ⟨.mpiWideningMult _ _ _, hpair hop, hw⟩
  · exact ⟨.f25519Reduce _ _, rfl, hda (by decide) ▸ hw⟩
  · exact ⟨.f25519Add _ _ _, rfl, hw⟩
  · exact ⟨.f25519Sub _ _ _, rfl, hw⟩
  · exact ⟨.f25519Mult _ _ _, rfl, hw⟩
  · exact ⟨.f25519Inv _ _, rfl, hda (by decide) ▸ hw⟩
  · exact ⟨.f25519Serialize _ _, rfl, hda (by decide) ▸ hw⟩
  · exact ⟨.f25519Deserialize _ _, rfl, hda (by decide) ▸ hw⟩
  · exact ⟨.curve25519Ladder _ _ _, rfl, hw⟩

/-- A word is illegal exactly when it decodes to no command (R77, R78). -/
theorem illegalWord_iff_decode_ne_ok {w : Word} : illegalWord w.toNat ↔ ∀ i, decode w ≠ .ok i := by
  refine ⟨fun hill i hd => not_illegalWord_of_decode hd hill, fun hno => ?_⟩
  by_contra hlegal
  obtain ⟨i, hwf, rfl⟩ := exists_encode_eq_of_not_illegalWord hlegal
  exact hno i (decode_encode hwf)

/-- E_ILLEGAL writes STATUS and nothing else (R202). -/
theorem State.raise_illegal (s : State) : s.raise .illegal = { s with status := statusIllegal s.status } := by
  rw [State.raise, State.endCommand, statusAfter_illegal]

/-- An illegal word ends with E_ILLEGAL (R77, R79). -/
theorem runCommand_of_illegalWord {w : Word} (h : illegalWord w.toNat) (s : State) :
    runCommand w s = .next { s with status := statusIllegal s.status } := by
  cases hd : decode w with
  | ok i => exact absurd h (not_illegalWord_of_decode hd)
  | error e => rw [runCommand_of_error hd, State.raise_illegal]

/-- Settles O6: the legal words are the encodings of the well-formed commands, which the decoder reads back one to one. -/
theorem illegalWordsEndWithEIllegal : Obligations.IllegalWordsEndWithEIllegal := by
  refine fun w => ⟨illegalWord_iff_decode_ne_ok, fun hill s rest hp => ?_, fun hlegal => ?_⟩
  · rw [step_cmdEvent hp, runCommand_of_illegalWord hill]
  · obtain ⟨i, hwf, henc⟩ := exists_encode_eq_of_not_illegalWord hlegal
    exact ⟨i, ⟨hwf, henc⟩, fun j ⟨hwfj, hencj⟩ => eq_of_encode_eq hwfj hwf (hencj.trans henc.symm)⟩

end Sys2Proof.Machine

/-! PROOF. The MPI commands (spec/40_mpi.md): the command words of one OP value, the value of each command and the whole state it
leaves (R101, R104, R107, R110), and the digit comparison of R108. -/

namespace Sys2Proof.Machine

/-! ### The command words of one OP value -/

/-- The words of an OP value (R71 to R77), from what the encoder makes of the command and from the ground on which its other
fields are illegal. -/
theorem wordsOf_of_encode {op : BitVec 8} {fieldsOk : Reg → Reg → Reg → Prop} {mk : Reg → Reg → Reg → Instr}
    (henc : ∀ rd ra rb, fieldsOk rd ra rb →
      (mk rd ra rb).wellFormed = true ∧ encode (mk rd ra rb) = commandWord op rd ra rb)
    (hbad : ∀ w, opField w = op → ¬ fieldsOk (rdField w) (raField w) (rbField w) → illegalWord w.toNat) :
    WordsOf op.toNat fieldsOk mk := by
  intro w rd ra rb hop hrd hra hrb
  obtain rfl : rdField w = rd := Fin.ext ((rdField_val w).trans hrd)
  obtain rfl : raField w = ra := Fin.ext ((raField_val w).trans hra)
  obtain rfl : rbField w = rb := Fin.ext ((rbField_val w).trans hrb)
  have hopw : opField w = op := BitVec.eq_of_toNat_eq ((opField_toNat w).trans hop)
  refine ⟨fun ⟨hrsv, hok⟩ => ?_, fun hnot s => runCommand_of_illegalWord ?_ s⟩
  · have hrsvw : rsvField w = 0#12 := BitVec.eq_of_toNat_eq ((rsvField_toNat w).trans hrsv)
    obtain ⟨hwf, hw⟩ := henc _ _ _ hok
    rw [← hopw, commandWord_fields w hrsvw] at hw
    exact (congrArg decode hw).symm.trans (decode_encode hwf)
  · by_cases hrsv : w.toNat / 2 ^ 20 = 0
    · exact hbad w hopw fun hok => hnot ⟨hrsv, hok⟩
    · exact .inr (.inl hrsv)

/-- The words of a command that uses all three register fields freely (R73). -/
theorem wordsOf_threeOperands {op : BitVec 8} {mk : Reg → Reg → Reg → Instr}
    (hwf : ∀ rd ra rb, (mk rd ra rb).wellFormed = true)
    (henc : ∀ rd ra rb, encode (mk rd ra rb) = commandWord op rd ra rb) :
    WordsOf op.toNat (fun _ _ _ => True) mk :=
  wordsOf_of_encode (fun rd ra rb _ => ⟨hwf rd ra rb, henc rd ra rb⟩) fun _ _ hnot => absurd trivial hnot

/-- The words of mpi_cmp: a nonzero RD is illegal (R73, R77.3). -/
theorem wordsOf_mpiCmp : WordsOf 0x03 (fun rd _ _ => rd = 0) (fun _ ra rb => .mpiCmp ra rb) := by
  refine wordsOf_of_encode (op := 0x03#8) (fun rd ra rb hrd => ⟨rfl, by rw [encode, hrd]⟩) fun w hop hrd => ?_
  refine .inr (.inr (.inl ⟨?_, fun h0 => hrd (Fin.ext ((rdField_val w).trans h0))⟩))
  rw [← opField_toNat, hop]
  rfl

/-- The words of mpi_widening_mult: an odd RD is illegal (R74, R77.4). -/
theorem wordsOf_mpiWideningMult : WordsOf 0x04 (fun rd _ _ => rd.val % 2 = 0) .mpiWideningMult := by
  refine wordsOf_of_encode (op := 0x04#8) (fun rd ra rb hrd => ⟨beq_iff_eq.2 hrd, rfl⟩) fun w hop hrd => ?_
  refine .inr (.inr (.inr (.inr ⟨?_, ?_⟩)))
  · rw [← opField_toNat, hop]
    rfl
  · rw [← rdField_val]
    exact Nat.mod_two_ne_zero.1 hrd

/-! ### The values of the commands -/

/-- The carry of a sum of two operands is one bit (R101). -/
theorem carryWord_add {a b : Nat} (ha : a < 2 ^ 256) (hb : b < 2 ^ 256) :
    carryWord (a + b) = if a + b < 2 ^ 256 then 0x00000000#32 else 0x00000001#32 := by
  unfold carryWord
  split
  case isTrue h => rw [Nat.div_eq_of_lt h]
  case isFalse h =>
    have hcarry : (a + b) / 2 ^ 256 = 1 := by omega
    rw [hcarry]

/-- subWrap is the non-negative remainder of the integer difference (R9, R104). -/
theorem subWrap_eq_emod (a : Nat) {b : Nat} (hb : b < 2 ^ 256) : (subWrap a b : Int) = ((a : Int) - b) % 2 ^ 256 := by
  unfold subWrap
  omega

theorem compareWord_of_gt {a b : Nat} (h : a > b) : compareWord a b = 0x00000001#32 := if_pos h

theorem compareWord_self (a : Nat) : compareWord a a = 0x00000000#32 := by simp [compareWord]

theorem compareWord_of_lt {a b : Nat} (h : a < b) : compareWord a b = 0xFFFFFFFF#32 := by
  rw [compareWord, if_neg h.not_gt, if_neg h.ne]

/-! ### The state a command leaves -/

/-- The end of a command that succeeded writes STATUS and nothing else (R27). -/
theorem State.complete_eq (s : State) : s.complete = { s with status := statusOk s.status } := by
  rw [State.complete, State.endCommand, statusAfter_ok]

theorem exec_mpiAdd (rd ra rb : Reg) (s : State) : exec (.mpiAdd rd ra rb) s =
    .next ((s.setNat rd ((s.val ra + s.val rb) % 2 ^ 256)).setRes (carryWord (s.val ra + s.val rb))).complete := rfl

theorem exec_mpiSubBorrow (rd ra rb : Reg) (s : State) : exec (.mpiSubBorrow rd ra rb) s =
    .next ((s.setNat rd (subWrap (s.val ra) (s.val rb))).setRes (borrowWord (s.val ra) (s.val rb))).complete := rfl

theorem exec_mpiCmp (ra rb : Reg) (s : State) : exec (.mpiCmp ra rb) s =
    .next { s with res := compareWord (s.val ra) (s.val rb), status := statusOk s.status } :=
  congrArg _ (State.complete_eq _)

theorem exec_mpiWideningMult_of_even {rd : Reg} (h : rd.val % 2 = 0) (ra rb : Reg) (s : State) :
    exec (.mpiWideningMult rd ra rb) s = .next (s.setPair rd (s.val ra * s.val rb)).complete :=
  if_pos (beq_iff_eq.2 h)

/-- The two registers of a pair are distinct (R22). -/
theorem pairHigh_ne : ∀ rd : Reg, pairHigh rd ≠ rd := by decide

/-- The low register of a pair reads as the low half of the value written (R22). -/
theorem State.val_setPair_low (s : State) (rd : Reg) (p : Nat) : (s.setPair rd p).val rd = p % 2 ^ 256 := by
  rw [State.setPair, State.val_setNat_of_ne _ _ _ _ (pairHigh_ne rd).symm,
    State.val_setNat_self _ _ _ (Nat.mod_lt _ (by decide))]

/-- The high register of a pair reads as the high half of the 512-bit value written (R22). -/
theorem State.val_setPair_high (s : State) (rd : Reg) {p : Nat} (h : p < 2 ^ 256 * 2 ^ 256) :
    (s.setPair rd p).val (pairHigh rd) = p / 2 ^ 256 := by
  rw [State.setPair, State.val_setNat_self _ _ _ (Nat.div_lt_of_lt_mul h)]

theorem State.getX_setPair_of_ne (s : State) {rd r : Reg} (p : Nat) (hlow : r ≠ rd) (hhigh : r ≠ pairHigh rd) :
    (s.setPair rd p).getX r = s.getX r := by
  rw [State.setPair, State.getX_setNat_of_ne _ _ _ _ hhigh, State.getX_setNat_of_ne _ _ _ _ hlow]

/-- The product of two operands fits a pair (R110). -/
theorem State.val_mul_val_lt (s : State) (ra rb : Reg) : s.val ra * s.val rb < 2 ^ 256 * 2 ^ 256 :=
  Nat.mul_lt_mul'' (s.val_lt ra) (s.val_lt rb)

/-! ### The four commands -/

/-- Settles O21: the command is the sum and its carry bit, written at once. -/
theorem mpiAddResult : Obligations.MpiAddResult := by
  refine ⟨wordsOf_threeOperands (op := 0x01#8) (fun _ _ _ => rfl) (fun _ _ _ => rfl), fun rd ra rb s => ?_⟩
  rw [exec_mpiAdd, State.complete_eq, carryWord_add (s.val_lt ra) (s.val_lt rb)]
  rfl

/-- Settles O22: the natural wrapped difference is the integer remainder. -/
theorem mpiSubBorrowResult : Obligations.MpiSubBorrowResult := by
  refine ⟨wordsOf_threeOperands (op := 0x02#8) (fun _ _ _ => rfl) (fun _ _ _ => rfl), fun rd ra rb s => ?_⟩
  rw [exec_mpiSubBorrow, State.complete_eq, ← subWrap_eq_emod _ (s.val_lt rb), BitVec.ofInt_natCast]
  rfl

/-- Settles O23: the command is the compare word, which is one value for each order. -/
theorem mpiCmpResult : Obligations.MpiCmpResult := by
  refine ⟨wordsOf_mpiCmp, fun ra rb s => ?_⟩
  rw [exec_mpiCmp]
  refine ⟨fun h => ?_, fun h => ?_, fun h => ?_⟩
  · rw [compareWord_of_gt h]
  · rw [h, compareWord_self]
  · rw [compareWord_of_lt h]

/-- Settles O24: with an even RD the command writes the 512-bit product into the pair. -/
theorem mpiWideningMultResult : Obligations.MpiWideningMultResult := by
  refine ⟨wordsOf_mpiWideningMult, fun rd ra rb heven s => ?_⟩
  exact ⟨_, exec_mpiWideningMult_of_even heven ra rb s, State.val_setPair_low s rd _,
    State.val_setPair_high s rd (s.val_mul_val_lt ra rb), fun _ => State.getX_setPair_of_ne s _,
    rfl, statusAfter_ok _, rfl, rfl, rfl, rfl⟩

/-! ### Comparing digits (R108) -/

/-- The last of n + 1 digits is the most significant one (R10). -/
theorem digitsOf_succ (n v : Nat) : digitsOf (n + 1) v = digitsOf n v ++ [v / 2 ^ (32 * n) % 2 ^ 32] := by
  simp [digitsOf, List.range_succ]

/-- A number's lowest n + 1 digits are its lowest n digits and digit n above them (R10). -/
theorem mod_digits_succ (n v : Nat) :
    v % 2 ^ (32 * (n + 1)) = v % 2 ^ (32 * n) + 2 ^ (32 * n) * (v / 2 ^ (32 * n) % 2 ^ 32) := by
  rw [Nat.mul_succ, pow_add, Nat.mod_mul]

/-- Digit n is compared before the lower ones, and decides when it differs (R108). -/
theorem cmpDigits_digitsOf_succ (n a b : Nat) : cmpDigits (digitsOf (n + 1) a) (digitsOf (n + 1) b) =
    if a / 2 ^ (32 * n) % 2 ^ 32 > b / 2 ^ (32 * n) % 2 ^ 32 then 1
    else if a / 2 ^ (32 * n) % 2 ^ 32 < b / 2 ^ (32 * n) % 2 ^ 32 then -1
    else cmpDigits (digitsOf n a) (digitsOf n b) := by
  simp [digitsOf_succ, cmpDigits, cmpDigitsFromTop]

/-- A larger high part decides the order, whatever the low part below it. -/
theorem add_mul_lt_of_high_lt {m low low' high high' : Nat} (hlow : low < m) (h : high < high') :
    low + m * high < low' + m * high' :=
  calc low + m * high < m + m * high := by omega
    _ = m * (high + 1) := by ring
    _ ≤ m * high' := Nat.mul_le_mul_left m h
    _ ≤ low' + m * high' := Nat.le_add_left _ _

/-- The digit comparison orders the numbers that n digits hold (R108), by induction on n from the most significant digit down. -/
theorem cmpDigits_digitsOf (n a b : Nat) : cmpDigits (digitsOf n a) (digitsOf n b) =
    if a % 2 ^ (32 * n) > b % 2 ^ (32 * n) then 1
    else if a % 2 ^ (32 * n) = b % 2 ^ (32 * n) then 0 else -1 := by
  induction n with
  | zero => simp [digitsOf, cmpDigits, cmpDigitsFromTop, Nat.mod_one]
  | succ n ih =>
    have hlow (v : Nat) : v % 2 ^ (32 * n) < 2 ^ (32 * n) := Nat.mod_lt _ (by positivity)
    rw [cmpDigits_digitsOf_succ, ih, mod_digits_succ n a, mod_digits_succ n b]
    rcases lt_trichotomy (a / 2 ^ (32 * n) % 2 ^ 32) (b / 2 ^ (32 * n) % 2 ^ 32) with h | h | h
    · have hlt := add_mul_lt_of_high_lt (low' := b % 2 ^ (32 * n)) (hlow a) h
      rw [if_neg h.not_gt, if_pos h, if_neg hlt.not_gt, if_neg hlt.ne]
    · rw [h]
      simp
    · rw [if_pos h, if_pos (add_mul_lt_of_high_lt (hlow b) h)]

/-- Settles O47: eight digits hold the whole operand. -/
theorem cmpDigitsGiveOrder : Obligations.CmpDigitsGiveOrder := by
  intro a b
  have hwhole (v : Operand) : v.toNat % 2 ^ (32 * 8) = v.toNat := Nat.mod_eq_of_lt v.isLt
  rw [cmpDigits_digitsOf, hwhole a, hwhole b]

end Sys2Proof.Machine

/-! PROOF. The F25519 commands (spec/41_f25519.md): the addition chain of R147 is the power z^(P-2), a message is the value its bytes
stand for, and the command words, the result and the range error of each command (R130 to R153). -/

namespace Sys2Proof.Machine

open Sys2Proof.Config (P)

/-! ### The command words -/

/-- The words of a command that uses RD and RA only: a nonzero RB is illegal (R73, R77.3). -/
theorem wordsOf_twoOperands {op : BitVec 8} {mk : Reg → Reg → Instr} (hop : op.toNat ∈ [0x10, 0x14, 0x15, 0x16])
    (hwf : ∀ rd ra, (mk rd ra).wellFormed = true) (henc : ∀ rd ra, encode (mk rd ra) = commandWord op rd ra 0) :
    WordsOf op.toNat (fun _ _ rb => rb = 0) (fun rd ra _ => mk rd ra) := by
  refine wordsOf_of_encode (fun rd ra rb hrb => ⟨hwf rd ra, hrb ▸ henc rd ra⟩) fun w hopw hrb => ?_
  refine .inr (.inr (.inr (.inl ⟨?_, fun h0 => hrb (Fin.ext ((rbField_val w).trans h0))⟩)))
  rw [← opField_toNat, hopw]
  exact hop

/-! ### What each command computes -/

theorem exec_f25519Reduce (rd ra : Reg) (s : State) :
    exec (.f25519Reduce rd ra) s = .next (s.setNat rd (s.val ra % P)).complete := rfl

theorem exec_f25519Add (rd ra rb : Reg) (s : State) : exec (.f25519Add rd ra rb) s = fieldBinary rd ra rb fadd s := rfl

theorem exec_f25519Sub (rd ra rb : Reg) (s : State) : exec (.f25519Sub rd ra rb) s = fieldBinary rd ra rb fsub s := rfl

theorem exec_f25519Mult (rd ra rb : Reg) (s : State) : exec (.f25519Mult rd ra rb) s = fieldBinary rd ra rb fmul s := rfl

theorem exec_f25519Inv (rd ra : Reg) (s : State) : exec (.f25519Inv rd ra) s = fieldUnary rd ra invChain s := rfl

theorem exec_f25519Serialize (rd ra : Reg) (s : State) :
    exec (.f25519Serialize rd ra) s = fieldUnary rd ra (fun e => e) s := rfl

theorem exec_f25519Deserialize (rd ra : Reg) (s : State) :
    exec (.f25519Deserialize rd ra) s = fieldUnary rd ra (fun v => v) s := rfl

/-! ### The state a field command leaves -/

/-- A command that succeeds with the result n writes x[rd] and STATUS and nothing else (R27). -/
theorem State.complete_setNat_eq (s : State) (rd : Reg) (n : Nat) : (s.setNat rd n).complete =
    { s with x := s.x.set rd.val (BitVec.ofNat 256 n) rd.isLt, status := statusOk s.status } :=
  State.complete_eq _

/-- E_RANGE writes STATUS and nothing else (R202). -/
theorem State.raise_range (s : State) : s.raise .range = { s with status := statusRange s.status } := by
  rw [State.raise, State.endCommand, statusAfter_range]

/-- Writing one register's value into another copies its bits. -/
theorem State.setNat_val (s : State) (rd ra : Reg) : s.setNat rd (s.val ra) = s.setX rd (s.getX ra) := by
  rw [State.setNat, State.val, BitVec.ofNat_toNat, BitVec.setWidth_eq]

/-- A form with one checked source leaves one of two states: the result written, or the range error (R131). -/
theorem fieldUnary_result (rd ra : Reg) (f : Nat → Nat) (s : State) :
    (s.val ra < P → fieldUnary rd ra f s = .next
      { s with x := s.x.set rd.val (BitVec.ofNat 256 (f (s.val ra))) rd.isLt, status := statusOk s.status }) ∧
    (P ≤ s.val ra → fieldUnary rd ra f s = .next { s with status := statusRange s.status }) := by
  refine ⟨fun h => ?_, fun h => ?_⟩
  · rw [fieldUnary_of_lt h, State.complete_setNat_eq]
  · rw [fieldUnary_of_le h, State.raise_range]

/-- A form with two checked sources leaves one of two states: the result written, or the range error (R131). -/
theorem fieldBinary_result (rd ra rb : Reg) (f : Nat → Nat → Nat) (s : State) :
    (s.val ra < P ∧ s.val rb < P → fieldBinary rd ra rb f s = .next
      { s with
        x := s.x.set rd.val (BitVec.ofNat 256 (f (s.val ra) (s.val rb))) rd.isLt
        status := statusOk s.status }) ∧
    (P ≤ s.val ra ∨ P ≤ s.val rb → fieldBinary rd ra rb f s = .next { s with status := statusRange s.status }) := by
  refine ⟨fun ⟨ha, hb⟩ => ?_, fun h => ?_⟩
  · rw [fieldBinary_of_lt ha hb, State.complete_setNat_eq]
  · rw [fieldBinary_of_le h, State.raise_range]

/-- A field command that copies its source when that is below P: the destination holds the source's bits (R150, R153). -/
theorem fieldUnary_copy_of_lt {rd ra : Reg} {s : State} (h : s.val ra < P) :
    fieldUnary rd ra (fun v => v) s = .next (s.setX rd (s.getX ra)).complete := by
  rw [fieldUnary_of_lt h, State.setNat_val]

/-- The copied register reads as the source did. -/
theorem State.getX_complete_setX_self (s : State) (rd : Reg) (v : Operand) : (s.setX rd v).complete.getX rd = v :=
  s.getX_setX_self rd v

/-! ### The addition chain (R147) -/

@[simp] theorem cast_fsqTimes (n t : Nat) : (fsqTimes n t : ZMod P) = (t : ZMod P) ^ 2 ^ n := by
  induction n generalizing t with
  | zero => simp [fsqTimes]
  | succ n ih => rw [fsqTimes, ih, cast_fsq, ← pow_mul, pow_succ']

/-- Five squarings and a multiplication by z^31 append five 1 bits to an exponent of 1 bits. -/
theorem cast_fiveSquaresMul {z : ZMod P} {m : Nat} (hm : (m : ZMod P) = z ^ 31) (n k t : Nat)
    (ht : (t : ZMod P) = z ^ (2 ^ k - 1)) : (fiveSquaresMul m n t : ZMod P) = z ^ (2 ^ (k + 5 * n) - 1) := by
  induction n generalizing k t with
  | zero => exact ht
  | succ n ih =>
    have hexp : (2 ^ k - 1) * 2 ^ 5 + 31 = 2 ^ (k + 5) - 1 := by
      have hpos : 0 < 2 ^ k := by positivity
      rw [pow_add]
      omega
    have hstep : (fmul (fsqTimes 5 t) m : ZMod P) = z ^ (2 ^ (k + 5) - 1) := by
      rw [cast_fmul, cast_fsqTimes, ht, hm, ← pow_mul, ← pow_add, hexp]
    rw [fiveSquaresMul, ih (k + 5) _ hstep]
    congr 3
    ring

/-- The exponent of the chain: 250 bits 1, five squarings, and 11. -/
theorem invChain_exponent : (2 ^ (5 + 5 * 49) - 1) * 2 ^ 5 + 11 = P - 2 := by decide

/-- The chain is the power P - 2 in the ring of residues (R147). -/
theorem cast_invChain (z : Nat) : (invChain z : ZMod P) = (z : ZMod P) ^ (P - 2) := by
  unfold invChain
  extract_lets t2 t4 t8 t9 t11 t22 t31
  have h2 : (t2 : ZMod P) = z ^ 2 := cast_fsq z
  have h9 : (t9 : ZMod P) = z ^ 9 := by
    rw [cast_fmul, cast_fsq, cast_fsq, h2, ← pow_mul, ← pow_mul, ← pow_succ]
  have h11 : (t11 : ZMod P) = z ^ 11 := by rw [cast_fmul, h9, h2, ← pow_add]
  have h31 : (t31 : ZMod P) = z ^ 31 := by rw [cast_fmul, cast_fsq, h11, h9, ← pow_mul, ← pow_add]
  rw [cast_fmul, cast_fsqTimes, h11, cast_fiveSquaresMul h31 49 5 t31 h31, ← pow_mul, ← pow_add, invChain_exponent]

/-- The chain computes the power it stands for (R146, R147; log entry 9). -/
theorem invChain_eq_fpow (z : Nat) : invChain z = fpow z (P - 2) :=
  eq_of_cast_eq (invChain_lt z) (fpow_lt z _) (by rw [cast_invChain, cast_fpow])

/-! ### Messages (R56) -/

theorem messageValue_append_singleton (l : List Byte) (b : Byte) :
    messageValue (l ++ [b]) = messageValue l + 256 ^ l.length * b.toNat := by
  induction l with
  | nil => simp [messageValue]
  | cons m l ih =>
    rw [List.cons_append, messageValue, ih, messageValue, List.length_cons]
    ring

/-- Byte b of an operand is its digit b to the base 256 (R55). -/
theorem operandByte_toNat (v : Operand) (b : Nat) : (operandByte v b).toNat = v.toNat / 256 ^ b % 256 := by
  rw [operandByte, BitVec.extractLsb'_toNat, Nat.shiftRight_eq_div_pow, pow_mul]
  rfl

/-- The lowest n bytes of an operand stand for its value modulo 256^n. -/
theorem messageValue_lowBytes (v : Operand) (n : Nat) :
    messageValue ((List.range n).map (operandByte v)) = v.toNat % 256 ^ n := by
  induction n with
  | zero => simp [messageValue, Nat.mod_one]
  | succ n ih =>
    rw [List.range_succ, List.map_append, List.map_singleton, messageValue_append_singleton, ih, operandByte_toNat,
      List.length_map, List.length_range, Nat.mod_pow_succ]

/-- The message of an operand stands for the operand's value (R56). -/
theorem messageValue_messageOf (v : Operand) : messageValue (messageOf v) = v.toNat := by
  rw [messageOf, messageValue_lowBytes]
  exact Nat.mod_eq_of_lt v.isLt

/-- The window bytes of a register are the message of its content (R55, R56). -/
theorem windowBytes_of_register (s : State) (n : Reg) :
    (List.range 32).map (fun b => s.windowByte (BitVec.ofNat 12 (0x20 * n.val + b))) = messageOf (s.getX n) :=
  List.map_congr_left fun _ hb => windowByte_of_register s n (List.mem_range.1 hb)

/-! ### The seven commands -/

/-- Settles O26: the one unchecked field command always writes the residue. -/
theorem f25519ReduceResult : Obligations.F25519ReduceResult := by
  refine ⟨wordsOf_twoOperands (op := 0x10#8) (by decide) (fun _ _ => rfl) (fun _ _ => rfl), fun rd ra s => ?_⟩
  rw [exec_f25519Reduce, State.complete_setNat_eq, P_eq]

/-- Settles O27: fadd under the operand check. -/
theorem f25519AddResult : Obligations.F25519AddResult := by
  refine ⟨wordsOf_threeOperands (op := 0x11#8) (fun _ _ _ => rfl) (fun _ _ _ => rfl), fun rd ra rb s => ?_⟩
  rw [exec_f25519Add]
  exact fieldBinary_result rd ra rb fadd s

/-- Settles O28: fsub under the operand check, and fsub is the integer remainder. -/
theorem f25519SubResult : Obligations.F25519SubResult := by
  refine ⟨wordsOf_threeOperands (op := 0x12#8) (fun _ _ _ => rfl) (fun _ _ _ => rfl), fun rd ra rb s => ?_⟩
  have hP : (2 ^ 255 - 19 : Int) = P := by decide
  rw [exec_f25519Sub, hP, ← fsub_eq_emod, BitVec.ofInt_natCast]
  exact fieldBinary_result rd ra rb fsub s

/-- Settles O29: fmul under the operand check. -/
theorem f25519MultResult : Obligations.F25519MultResult := by
  refine ⟨wordsOf_threeOperands (op := 0x13#8) (fun _ _ _ => rfl) (fun _ _ _ => rfl), fun rd ra rb s => ?_⟩
  rw [exec_f25519Mult]
  exact fieldBinary_result rd ra rb fmul s

/-- Settles O30: the chain under the operand check, and the chain is the power. -/
theorem f25519InvResult : Obligations.F25519InvResult := by
  refine ⟨wordsOf_twoOperands (op := 0x14#8) (by decide) (fun _ _ => rfl) (fun _ _ => rfl), fun rd ra s => ?_⟩
  rw [exec_f25519Inv, ← invChain_eq_fpow]
  exact fieldUnary_result rd ra invChain s

/-- Settles O31: the element's bits are copied, and the window shows them a byte at a time. -/
theorem f25519SerializeResult : Obligations.F25519SerializeResult := by
  refine ⟨wordsOf_twoOperands (op := 0x15#8) (by decide) (fun _ _ => rfl) (fun _ _ => rfl), fun rd ra s => ?_⟩
  rw [exec_f25519Serialize]
  refine ⟨fun h => ⟨_, fieldUnary_copy_of_lt h, State.complete_eq _, fun b hb => ?_⟩, (fieldUnary_result rd ra _ s).2⟩
  rw [windowByte_of_register _ rd hb, State.getX_complete_setX_self]
  rfl

/-- Settles O32: the source is copied, and its value is that of the message its window bytes show. -/
theorem f25519DeserializeResult : Obligations.F25519DeserializeResult := by
  refine ⟨wordsOf_twoOperands (op := 0x16#8) (by decide) (fun _ _ => rfl) (fun _ _ => rfl), fun rd ra s => ?_⟩
  rw [exec_f25519Deserialize]
  refine ⟨fun h => ⟨_, fieldUnary_copy_of_lt h, State.complete_eq _, ?_⟩, (fieldUnary_result rd ra _ s).2⟩
  rw [windowBytes_of_register, messageValue_messageOf, State.val, State.getX_complete_setX_self]

/-! ### Every result is a field element (R130) -/

/-- Settles O34: an ending with code 0 is the successful one, which bounds what a field command writes. -/
theorem fieldResultsBelowP : Obligations.FieldResultsBelowP := by
  intro i s t hfield hexec herr r hr
  cases ending_of_exec hexec with
  | illegal => simp [ErrorCode.bits] at herr
  | range => simp [ErrorCode.bits] at herr
  | done u _ _ _ _ _ _ _ _ _ _ hbelow => exact hbelow hfield r hr

end Sys2Proof.Machine

/-! PROOF. Commands that end with an error (spec/60_exceptions.md R202): both error endings write STATUS and nothing else. -/

namespace Sys2Proof.Machine

/-- Of a command's endings only the two errors have a code other than 0, and each raises its code on the old state (R201, R202). -/
theorem Ending.eq_raise_of_errField_ne {i : Instr} {s t : State} (h : Ending i s t) (herr : errField t.status ≠ 0#4) :
    t = s.raise .illegal ∨ t = s.raise .range := by
  cases h with
  | illegal => exact .inl rfl
  | range => exact .inr rfl
  | done u => exact absurd (errField_statusAfter .ok u.status) herr

/-- The same of any command word, legal or not (R79, R202). -/
theorem runCommand_eq_raise_of_errField_ne {w : Word} {s t : State} (h : runCommand w s = .next t)
    (herr : errField t.status ≠ 0#4) : t = s.raise .illegal ∨ t = s.raise .range := by
  obtain ⟨u, hu, hend⟩ := runCommand_ending w s
  obtain rfl : t = u := Host.Outcome.next.inj (h.symm.trans hu)
  rcases hend with ⟨i, -, hend⟩ | ⟨-, ht⟩
  · exact hend.eq_raise_of_errField_ne herr
  · exact .inl ht

/-- Settles O16: the word runs on the old state with CMD_LAST set, and its error is raised on that state. -/
theorem errorWritesNoResult : Obligations.ErrorWritesNoResult := by
  intro s t w rest hp hstep herr
  rw [step_cmdEvent hp] at hstep
  refine ⟨by simp [serrField_of_runCommand hstep, herr], ?_⟩
  simpa only [State.raise_illegal, State.raise_range] using runCommand_eq_raise_of_errField_ne hstep herr

end Sys2Proof.Machine

/-! PROOF. The decoder and the opcode table agree (spec/30_encoding.md R70 to R78, spec/opcode_table.json), and the assembler's
lines (R80, R81). -/

namespace Sys2Proof

/-! ### A word that fits a row of the opcode table -/

section Fits

variable {r : OpcodeRow} {w : Word}

/-- A field whose bits the row's mask keeps whole holds the bits of the match. -/
theorem OpcodeRow.extract_eq_of_fits {start len : Nat} (h : r.fits w = true)
    (hm : r.maskBits.extractLsb' start len = BitVec.allOnes len) :
    w.extractLsb' start len = r.matchBits.extractLsb' start len := by
  rw [← beq_iff_eq.1 h, BitVec.extractLsb'_and, hm, BitVec.and_allOnes]

/-- Every row of the table fixes OP and RSV, RSV as 0, and its OP is one of the opcode map's (R76). -/
theorem opcodeTable_mask : ∀ r ∈ opcodeTable,
    r.maskBits.extractLsb' 0 8 = BitVec.allOnes 8 ∧ r.maskBits.extractLsb' 20 12 = BitVec.allOnes 12 ∧
      rsvField r.matchBits = 0#12 ∧ opField r.matchBits ∈
        [0x01#8, 0x02#8, 0x03#8, 0x04#8, 0x10#8, 0x11#8, 0x12#8, 0x13#8, 0x14#8, 0x15#8, 0x16#8, 0x20#8] := by decide

/-- The rows fix the fields that R73 marks 0, and the low bit of the destination of mpi_widening_mult (R74). -/
theorem opcodeTable_fields : ∀ r ∈ opcodeTable,
    (opField r.matchBits = 0x03#8 → r.maskBits.extractLsb' 8 4 = BitVec.allOnes 4 ∧ rdField r.matchBits = 0) ∧
    (opField r.matchBits ∈ [0x10#8, 0x14#8, 0x15#8, 0x16#8] →
      r.maskBits.extractLsb' 16 4 = BitVec.allOnes 4 ∧ rbField r.matchBits = 0) ∧
    (opField r.matchBits = 0x04#8 →
      r.maskBits.extractLsb' 8 1 = BitVec.allOnes 1 ∧ r.matchBits.extractLsb' 8 1 = 0#1) := by
  decide

/-- No two rows have one OP (R76). -/
theorem opcodeTable_opField_injective : ∀ r ∈ opcodeTable, ∀ q ∈ opcodeTable,
    opField r.matchBits = opField q.matchBits → r = q := by decide

/-- A register is even when the low bit of its field is 0 (R74). -/
theorem evenPair_rdField (h : w.extractLsb' 8 1 = 0#1) : evenPair (rdField w) = true := by
  have hbit : w.toNat / 2 ^ 8 % 2 ^ 1 = 0 := by simpa [Nat.shiftRight_eq_div_pow] using congrArg BitVec.toNat h
  rw [evenPair, rdField_val, beq_iff_eq]
  omega

variable (hr : r ∈ opcodeTable) (h : r.fits w = true)
include hr h

theorem opField_of_fits : opField w = opField r.matchBits := OpcodeRow.extract_eq_of_fits h (opcodeTable_mask r hr).1

/-- A word that fits a row breaks none of the conditions of R77. -/
theorem not_illegalWord_of_fits : ¬ Machine.illegalWord w.toNat := by
  obtain ⟨-, hmrsv, hrsv, hop⟩ := opcodeTable_mask r hr
  obtain ⟨hcmp, hda, hpair⟩ := opcodeTable_fields r hr
  rw [Machine.not_illegalWord_iff_fields, opField_of_fits hr h]
  refine ⟨hop, (OpcodeRow.extract_eq_of_fits h hmrsv).trans hrsv, fun h3 => ?_, fun hu => ?_, fun h4 => ?_⟩
  · obtain ⟨hm, h0⟩ := hcmp h3
    exact (congrArg BitVec.toFin (OpcodeRow.extract_eq_of_fits h hm)).trans h0
  · obtain ⟨hm, h0⟩ := hda hu
    exact (congrArg BitVec.toFin (OpcodeRow.extract_eq_of_fits h hm)).trans h0
  · obtain ⟨hm, h0⟩ := hpair h4
    exact evenPair_rdField ((OpcodeRow.extract_eq_of_fits h hm).trans h0)

end Fits

/-- Every well-formed command has a row: the twelve lemmas of Laws/PerInstr together. -/
theorem exists_row_of_wellFormed (i : Instr) : Laws.OpcodeRow.Statement i := by
  cases i with
  | mpiAdd => exact Laws.OpcodeRow.mpiAdd _ _ _
  | mpiSubBorrow => exact Laws.OpcodeRow.mpiSubBorrow _ _ _
  | mpiCmp => exact Laws.OpcodeRow.mpiCmp _ _
  | mpiWideningMult => exact Laws.OpcodeRow.mpiWideningMult _ _ _
  | f25519Reduce => exact Laws.OpcodeRow.f25519Reduce _ _
  | f25519Add => exact Laws.OpcodeRow.f25519Add _ _ _
  | f25519Sub => exact Laws.OpcodeRow.f25519Sub _ _ _
  | f25519Mult => exact Laws.OpcodeRow.f25519Mult _ _ _
  | f25519Inv => exact Laws.OpcodeRow.f25519Inv _ _
  | f25519Serialize => exact Laws.OpcodeRow.f25519Serialize _ _
  | f25519Deserialize => exact Laws.OpcodeRow.f25519Deserialize _ _
  | curve25519Ladder => exact Laws.OpcodeRow.curve25519Ladder _ _ _

/-- A word that decodes fits a row that has the command's mnemonic (R76). -/
theorem exists_row_of_decode {w : Word} {i : Instr} (h : decode w = .ok i) :
    ∃ r ∈ opcodeTable, r.fits w = true ∧ r.mnemonic = i.mnemonic := by
  obtain ⟨hwf, henc⟩ := encode_of_decode h
  exact henc ▸ exists_row_of_wellFormed i hwf

/-- Settles O4: the decoder reads every encoding back. -/
theorem decodeOfEncode : Obligations.DecodeOfEncode := fun _ h => decode_encode h

/-- Settles O5: each row of the decoder answers the command whose encoding it has read. -/
theorem encodeOfDecode : Obligations.EncodeOfDecode := fun _ _ h => encode_of_decode h

/-- Settles O7: a row fixes all that R77 asks of a word, and the row of a word is told by its OP. -/
theorem decoderAgreesWithOpcodeTable : Obligations.DecoderAgreesWithOpcodeTable := by
  refine fun w => ⟨⟨fun ⟨i, h⟩ => ?_, fun ⟨r, hr, h⟩ => ?_⟩, fun i h r hr hfit => ?_⟩
  · obtain ⟨r, hr, hfit, -⟩ := exists_row_of_decode h
    exact ⟨r, hr, hfit⟩
  · obtain ⟨i, hwf, rfl⟩ := Machine.exists_encode_eq_of_not_illegalWord (not_illegalWord_of_fits hr h)
    exact ⟨i, decode_encode hwf⟩
  · obtain ⟨q, hq, hfitq, hname⟩ := exists_row_of_decode h
    have hop : opField r.matchBits = opField q.matchBits := (opField_of_fits hr hfit).symm.trans (opField_of_fits hq hfitq)
    rw [opcodeTable_opField_injective r hr q hq hop, hname]

/-! ### Words and lines of the spec -/

/-- Settles O3: each word is the encoding of its command. -/
theorem specWordsDecode : Obligations.SpecWordsDecode :=
  ⟨decode_encode (i := .mpiAdd 2 0 1) rfl, decode_encode (i := .mpiCmp 0 1) rfl,
    decode_encode (i := .mpiWideningMult 14 15 15) rfl, decode_encode (i := .f25519Reduce 1 0) rfl,
    decode_encode (i := .f25519Mult 3 5 5) rfl, decode_encode (i := .f25519Deserialize 1 0) rfl,
    decode_encode (i := .curve25519Ladder 2 0 1) rfl⟩

/-- The line of a well-formed command assembles to it (R80). -/
theorem assemble_operands (i : Instr) (h : i.wellFormed = true) : assemble i.mnemonic i.operands = some i := by
  cases i with
  | mpiWideningMult rd ra rb => exact if_pos h
  | mpiAdd | mpiSubBorrow | f25519Add | f25519Sub | f25519Mult | curve25519Ladder => rfl
  | mpiCmp | f25519Reduce | f25519Inv | f25519Serialize | f25519Deserialize => rfl

/-- A command word is the number R80 gives. -/
theorem commandWord_eq_wordOf (op : BitVec 8) (rd ra rb : Reg) :
    commandWord op rd ra rb = Machine.wordOf op.toNat rd ra rb := by
  rw [Machine.wordOf, ← commandWord_toNat, BitVec.ofNat_toNat, BitVec.setWidth_eq]

/-- Settles O8: f25519_square assembles to f25519_mult with equal sources. -/
theorem assemblerReadsLines : Obligations.AssemblerReadsLines := by
  refine ⟨assemble_operands, fun rd ra => ?_⟩
  have hsquare : assemble "f25519_square" [rd, ra] = some (.f25519Mult rd ra ra) := rfl
  rw [hsquare, Option.map_some, encode, commandWord_eq_wordOf]
  rfl

end Sys2Proof

/-! PROOF. What every step keeps (spec/10_state.md R24 to R28; spec/20_memory.md R58 to R62; spec/70_reset_and_hazards.md R230 to
R232): the legal values of STATUS and RES, the order of the waiting events, and the events that change the block at all. -/

namespace Sys2Proof.Machine

/-! ### The events of a step -/

/-- Settles O53: an aligned read puts its word on the bus. -/
theorem hostReadHasNoSideEffect : Obligations.HostReadHasNoSideEffect := fun _ _ _ hp ho =>
  step_read hp (aligned_iff.2 ho)

/-- Settles O9: the write sets CMD_LAST and runs the word, which is the command it decodes to. -/
theorem stepRunsDecodedCommand : Obligations.StepRunsDecodedCommand := fun _ _ _ _ hp hd =>
  (step_cmdEvent hp).trans (runCommand_of_ok hd _)

/-- Settles O2: both events write the reset value into each of the block's registers. -/
theorem resetInputRestoresResetState : Obligations.ResetInputRestoresResetState := by
  rintro s e rest hp (rfl | ⟨w, rfl⟩)
  · exact ⟨_, step_cons hp, ⟨rfl, rfl, rfl, rfl⟩, rfl⟩
  · exact ⟨_, step_cons hp, ⟨rfl, rfl, rfl, rfl⟩, rfl⟩

/-- Settles O14: of all a step can do, only a digit write, a CMD write, a STATUS write and the two resets touch a
register. -/
theorem onlyWritesAndResetChangeBlock : Obligations.OnlyWritesAndResetChangeBlock := by
  intro s t hstep hchange
  cases stepped_of_step hstep with
  | idle | read | ignoredWrite => exact absurd ⟨rfl, rfl, rfl, rfl⟩ hchange
  | digitWrite o v i j rest hp ha ho =>
    refine ⟨_, rest, hp, .inl ⟨o, v, rfl, ?_⟩⟩
    by_contra hge
    rcases windowReg_of_readOnly (not_lt.1 hge) with h | h | h <;> rw [h] at ho <;> cases ho
  | cmdWrite w rest _ hp => exact ⟨_, rest, hp, .inl ⟨_, w, rfl, by decide⟩⟩
  | statusWrite v rest hp => exact ⟨_, rest, hp, .inl ⟨_, v, rfl, by decide⟩⟩
  | reset rest hp => exact ⟨_, rest, hp, .inr (.inl rfl)⟩
  | cutByReset w rest hp => exact ⟨_, rest, hp, .inr (.inr ⟨w, rfl⟩)⟩

/-! ### Legal values -/

/-- The mask of the reserved bits of STATUS (R26). -/
theorem getLsbD_reservedMask : ∀ k < 32, (0xFFFFFEF0#32).getLsbD k = decide (4 ≤ k ∧ k ≠ 8) := by decide

/-- ERR and the reserved bits decide whether STATUS is legal. -/
theorem statusLegal_iff {status : Word} : statusLegal status = true ↔
    (errField status = 0#4 ∨ errField status = 1#4 ∨ errField status = 2#4) ∧
      ∀ k < 32, 4 ≤ k → k ≠ 8 → status.getLsbD k = false := by
  have hmask : status &&& 0xFFFFFEF0#32 = 0#32 ↔ ∀ k < 32, 4 ≤ k → k ≠ 8 → status.getLsbD k = false := by
    refine ⟨fun h k hk h4 h8 => ?_, fun h => BitVec.eq_of_getLsbD_eq fun k hk => ?_⟩
    · simpa [getLsbD_reservedMask k hk, h4, h8] using congrArg (·.getLsbD k) h
    · rw [BitVec.getLsbD_and, getLsbD_reservedMask k hk, BitVec.getLsbD_zero]
      by_cases hres : 4 ≤ k ∧ k ≠ 8
      · rw [h k hk hres.1 hres.2, Bool.false_and]
      · rw [decide_eq_false hres, Bool.and_false]
  simp only [statusLegal, Bool.and_eq_true, Bool.or_eq_true, beq_iff_eq, hmask, or_assoc]

/-- A command leaves STATUS legal: its code is 0, 1 or 2, and it writes no reserved bit (R27, R28, R200). -/
theorem statusLegal_statusAfter (c : ErrorCode) {status : Word} (h : statusLegal status = true) :
    statusLegal (statusAfter c status) = true := by
  obtain ⟨-, hreserved⟩ := statusLegal_iff.1 h
  refine statusLegal_iff.2 ⟨?_, fun k hk h4 h8 => ?_⟩
  · rw [errField_statusAfter]
    cases c <;> decide
  · rw [getLsbD_statusAfter c status k h4 h8, hreserved k hk h4 h8]

/-- A host write leaves STATUS legal: it changes SERR at most (R28). -/
theorem statusLegal_statusWrite (v : Word) {status : Word} (h : statusLegal status = true) :
    statusLegal (statusWrite v status) = true := by
  obtain ⟨herr, hreserved⟩ := statusLegal_iff.1 h
  have hkeep : ∀ k < 32, k ≠ 8 → (statusWrite v status).getLsbD k = status.getLsbD k := fun k hk h8 => by
    rw [getLsbD_statusWrite v status k hk, if_neg fun h => h8 h.1]
  have hfield : errField (statusWrite v status) = errField status := by
    unfold errField
    ext k hk
    simpa using hkeep k (by omega) (by omega)
  exact statusLegal_iff.2 ⟨hfield ▸ herr, fun k hk h4 h8 => (hkeep k hk h8).trans (hreserved k hk h4 h8)⟩

/-- Each ending of a command leaves STATUS and RES legal. -/
theorem Ending.registersLegal {i : Instr} {s t : State} (h : Ending i s t) (hs : RegistersLegal s) : RegistersLegal t := by
  obtain ⟨hstatus, hres⟩ := hs
  cases h with
  | illegal => exact ⟨statusLegal_statusAfter .illegal hstatus, hres⟩
  | range => exact ⟨statusLegal_statusAfter .range hstatus, hres⟩
  | done u _ _ _ hkeep hlegal hst =>
    refine ⟨statusLegal_statusAfter .ok (hst ▸ hstatus), ?_⟩
    cases hw : i.writesRes with
    | true => exact hlegal hw
    | false => exact (hkeep hw).symm ▸ hres

/-- The same of any command word. -/
theorem runCommand_registersLegal {w : Word} {s t : State} (h : runCommand w s = .next t) (hs : RegistersLegal s) :
    RegistersLegal t := by
  obtain ⟨u, hu, hend⟩ := runCommand_ending w s
  obtain rfl : t = u := Host.Outcome.next.inj (h.symm.trans hu)
  rcases hend with ⟨i, -, hend⟩ | ⟨-, rfl⟩
  · exact hend.registersLegal hs
  · exact ⟨statusLegal_statusAfter .illegal hs.1, hs.2⟩

/-- Settles O10: both registers are 0 after reset. -/
theorem resetStateIsLegal : Obligations.ResetStateIsLegal := ⟨by decide, by decide⟩

/-- Settles O11: STATUS is written by commands and by STATUS writes, RES by commands, and both by the resets. -/
theorem stepKeepsRegistersLegal : Obligations.StepKeepsRegistersLegal := by
  intro s t hs hstep
  cases stepped_of_step hstep with
  | idle | read | digitWrite | ignoredWrite => exact hs
  | cmdWrite w rest _ _ ht => exact runCommand_registersLegal ht hs
  | statusWrite v => exact ⟨statusLegal_statusWrite v hs.1, hs.2⟩
  | reset | cutByReset => exact resetStateIsLegal

/-! ### Runs -/

/-- An event with a meaning is performed, and leaves the ones after it waiting (R53, R62). -/
theorem hostEvent_of_specified {e : HostEvent} (h : e.specified = true) (s : State) :
    ∃ t, hostEvent e s = .next t ∧ t.pending = s.pending := by
  cases e with
  | access a =>
    cases a with
    | read width o =>
      obtain ⟨hw, ha⟩ : width = 4 ∧ aligned o = true := by simpa [HostEvent.specified, HostAccess.specified] using h
      exact ⟨{ s with reply := some (s.memRead o) }, by simp [hostEvent, hostAccess, hw, ha], rfl⟩
    | write width o v =>
      obtain ⟨hw, ha⟩ : width = 4 ∧ aligned o = true := by simpa [HostEvent.specified, HostAccess.specified] using h
      obtain ⟨t, ht, hpend⟩ := memWrite_next o v s
      exact ⟨t, by simp [hostEvent, hostAccess, hw, ha, ht], hpend⟩
  | reset => exact ⟨_, rfl, rfl⟩
  | cmdCutByReset w => exact ⟨_, rfl, rfl⟩

/-- A step of a block whose waiting events all have a meaning takes the first one, if there is one (R62, R214). -/
theorem step_of_hostSpecified {s : State} (h : s.hostSpecified = true) :
    ∃ t, step s = .next t ∧ t.pending = s.pending.drop 1 := by
  cases hp : s.pending with
  | nil => exact ⟨s, step_nil hp, hp⟩
  | cons e rest =>
    rw [State.hostSpecified, hp, List.all_cons, Bool.and_eq_true] at h
    obtain ⟨t, ht, hpend⟩ := hostEvent_of_specified h.1 { s with pending := rest, reply := none }
    exact ⟨t, (step_cons hp).trans ht, hpend⟩

/-- Settles O12: a step keeps the premise, which speaks of the waiting events only. -/
theorem specifiedAccessesNeverStop : Obligations.SpecifiedAccessesNeverStop := by
  intro n
  induction n with
  | zero => exact fun s h => ⟨s, run_zero s, rfl, h⟩
  | succ n ih =>
    intro s h
    obtain ⟨u, hu, hpend⟩ := step_of_hostSpecified h
    have hspec : u.hostSpecified = true := by
      rw [State.hostSpecified, List.all_eq_true] at h ⊢
      exact fun e he => h e (List.mem_of_mem_drop (hpend ▸ he))
    obtain ⟨t, ht, hdrop, htspec⟩ := ih u hspec
    exact ⟨t, (run_succ_of_next hu).trans ht, by rw [hdrop, hpend, List.drop_drop, Nat.add_comm], htspec⟩

end Sys2Proof.Machine

/-! PROOF. The ladder step on the curve (spec/42_curve25519.md R171, R173): the step in closed form, and the doubling and
differential-addition formulas of the Montgomery curve against Mathlib's group of points. -/

namespace Sys2Proof.Machine

open Sys2Proof.Config (P)
open WeierstrassCurve.Affine

/-! ### The step in closed form -/

theorem cast_mdaDouble_X (td : Point) :
    ((mdaDouble td).X : ZMod P) = ((td.X : ZMod P) ^ 2 - (td.Z : ZMod P) ^ 2) ^ 2 := by
  simp only [mdaDouble, cast_fmul, cast_fsq, cast_fadd, cast_fsub]
  ring

theorem cast_mdaDouble_Z (td : Point) : ((mdaDouble td).Z : ZMod P) =
    4 * td.X * td.Z * ((td.X : ZMod P) ^ 2 + 486662 * td.X * td.Z + (td.Z : ZMod P) ^ 2) := by
  simp only [mdaDouble, cast_fmul, cast_fsq, cast_fadd, cast_fsub, cast_mulSmall, Config.a24, Nat.cast_ofNat]
  ring

theorem cast_mdaAdd_X (ta td : Point) (u : Nat) :
    ((mdaAdd ta td u).X : ZMod P) = 4 * ((ta.X : ZMod P) * td.X - ta.Z * td.Z) ^ 2 := by
  simp only [mdaAdd, cast_fmul, cast_fsq, cast_fadd, cast_fsub]
  ring

theorem cast_mdaAdd_Z (ta td : Point) (u : Nat) :
    ((mdaAdd ta td u).Z : ZMod P) = 4 * u * ((ta.X : ZMod P) * td.Z - ta.Z * td.X) ^ 2 := by
  simp only [mdaAdd, cast_fmul, cast_fsq, cast_fadd, cast_fsub]
  ring

/-- Settles O38: the field functions are the ring's operations, and each is reduced. -/
theorem ladderStepClosedForm : Obligations.LadderStepClosedForm := fun ta td u =>
  ⟨cast_mdaDouble_X td, cast_mdaDouble_Z td, cast_mdaAdd_X ta td u, cast_mdaAdd_Z ta td u,
    fmul_lt _ _, fmul_lt _ _, fsq_lt _, fmul_lt _ _⟩

/-- Settles O39: 121666 * E + BB is 121665 * E + AA, since E = AA - BB. -/
theorem doublingEquivalentForm : Obligations.DoublingEquivalentForm := by
  intro td
  refine eq_of_cast_eq (fmul_lt _ _) (fmul_lt _ _) ?_
  simp only [cast_mdaDouble_Z, cast_fmul, cast_fsq, cast_fadd, cast_fsub, cast_mulSmall, Nat.cast_ofNat]
  ring

/-! ### The curve -/

section Curve

variable [Fact (Nat.Prime P)]

theorem four_ne_zero_mod_P : (4 : ZMod P) ≠ 0 := by
  intro h
  have hdvd : P ∣ 4 := (ZMod.natCast_eq_zero_iff 4 P).1 (by exact_mod_cast h)
  exact absurd (Nat.le_of_dvd (by decide) hdvd) (by decide)

theorem two_ne_zero_mod_P : (2 : ZMod P) ≠ 0 := fun h => four_ne_zero_mod_P (by linear_combination 2 * h)

/-- Negation of a point negates y. -/
theorem negY_montgomeryCurve (x y : ZMod P) : montgomeryCurve.negY x y = -y := by
  simp [negY, montgomeryCurve]

/-- The equation of the curve at one of its points. -/
theorem equation_of_nonsingular {x y : ZMod P} (h : montgomeryCurve.Nonsingular x y) :
    y ^ 2 = x ^ 3 + 486662 * x ^ 2 + x := by
  have heq := (equation_iff ..).1 h.1
  simp only [montgomeryCurve] at heq
  linear_combination heq

/-- Where y is 0 the derivative of the right side is not. -/
theorem derivative_ne_zero_of_nonsingular {x : ZMod P} (h : montgomeryCurve.Nonsingular x 0) :
    3 * x ^ 2 + 2 * 486662 * x + 1 ≠ 0 := by
  intro hd
  rcases ((nonsingular_iff ..).1 h).2 with h0 | h0
  · refine h0 ?_
    simp only [montgomeryCurve]
    linear_combination -hd
  · simp [montgomeryCurve] at h0

/-- A point with y = 0 has no x with x^2 = 1, so the doubling formulas give infinity and not (0 : 0). -/
theorem sq_ne_one_of_nonsingular {x : ZMod P} (h : montgomeryCurve.Nonsingular x 0) : x ^ 2 - 1 ≠ 0 := by
  intro h1
  have heq := equation_of_nonsingular h
  refine derivative_ne_zero_of_nonsingular h ?_
  linear_combination (-(2 * x ^ 2 + 1 + 2 * 486662 * x)) * h1 - 2 * x * heq

/-! ### Doubling and differential addition on x-coordinates -/

/-- x(P + Q) * x(P - Q) on the Montgomery curve, for P and Q with different x-coordinates: the product of the two secant
formulas. -/
theorem addX_mul_subX {x₁ y₁ x₂ y₂ : ZMod P} (h₁ : montgomeryCurve.Nonsingular x₁ y₁)
    (h₂ : montgomeryCurve.Nonsingular x₂ y₂) (hx : x₁ ≠ x₂) :
    (x₁ * x₂ - 1) ^ 2 = montgomeryCurve.addX x₁ x₂ (montgomeryCurve.slope x₁ x₂ y₁ (-y₂)) * (x₁ - x₂) ^ 2 *
      montgomeryCurve.addX x₁ x₂ (montgomeryCurve.slope x₁ x₂ y₁ y₂) := by
  have hne : x₁ - x₂ ≠ 0 := sub_ne_zero.2 hx
  have hs : (y₁ ^ 2 - y₂ ^ 2) ^ 2 - 2 * (y₁ ^ 2 + y₂ ^ 2) * ((486662 + x₁ + x₂) * (x₁ - x₂) ^ 2) +
      ((486662 + x₁ + x₂) * (x₁ - x₂) ^ 2) ^ 2 = (x₁ * x₂ - 1) ^ 2 * (x₁ - x₂) ^ 2 := by
    rw [equation_of_nonsingular h₁, equation_of_nonsingular h₂]
    ring
  rw [slope_of_X_ne hx, slope_of_X_ne hx]
  simp only [addX, montgomeryCurve]
  field_simp
  linear_combination -hs

/-- A point with y not 0 is not its own opposite. -/
theorem ne_negY_of_ne_zero (x : ZMod P) {y : ZMod P} (hy : y ≠ 0) : y ≠ montgomeryCurve.negY x y := by
  rw [negY_montgomeryCurve]
  exact fun h => mul_ne_zero two_ne_zero_mod_P hy (by linear_combination h)

/-- x(2P) on the Montgomery curve: the tangent formula. -/
theorem addX_self {x y : ZMod P} (h : montgomeryCurve.Nonsingular x y) (hy : y ≠ 0) :
    (x ^ 2 - 1) ^ 2 = 4 * y ^ 2 * montgomeryCurve.addX x x (montgomeryCurve.slope x x y y) := by
  have h2 := two_ne_zero_mod_P
  have h4 := four_ne_zero_mod_P
  rw [slope_of_Y_ne rfl (ne_negY_of_ne_zero x hy), negY_montgomeryCurve, sub_neg_eq_add, ← two_mul]
  simp only [addX, montgomeryCurve]
  field_simp
  linear_combination 16 * (486662 + 2 * x) * equation_of_nonsingular h

/-- A pair represents a point exactly when it is a multiple of Mathlib's representative of the point's x-coordinate. -/
theorem represents_iff {T : Point} {Q : montgomeryCurve.Point} :
    represents T Q ↔ ∃ c : ZMod P, c ≠ 0 ∧ (T.X : ZMod P) = c * Q.xRep 0 ∧ (T.Z : ZMod P) = c * Q.xRep 1 := by
  cases Q with
  | zero =>
    refine ⟨fun ⟨hZ, hX⟩ => ⟨T.X, hX, ?_, ?_⟩, fun ⟨c, hc, hX, hZ⟩ => ⟨?_, ?_⟩⟩
    · simp [Point.xRep]
    · simp [Point.xRep, hZ]
    · simpa [Point.xRep] using hZ
    · simpa [Point.xRep, hX] using hc
  | some x y h =>
    refine ⟨fun ⟨hZ, hX⟩ => ⟨T.Z, hZ, ?_, ?_⟩, fun ⟨c, hc, hX, hZ⟩ => ⟨?_, ?_⟩⟩
    · simp [hX, mul_comm]
    · simp
    · simpa [hZ] using hc
    · simp [hX, hZ, mul_comm]

/-- The doubling formula on the representative of a point gives a multiple of the representative of its double. -/
theorem double_xRep (D : montgomeryCurve.Point) : ∃ c : ZMod P, c ≠ 0 ∧
    (D.xRep 0 ^ 2 - D.xRep 1 ^ 2) ^ 2 = c * (D + D).xRep 0 ∧
    4 * D.xRep 0 * D.xRep 1 * (D.xRep 0 ^ 2 + 486662 * D.xRep 0 * D.xRep 1 + D.xRep 1 ^ 2) = c * (D + D).xRep 1 := by
  cases D with
  | zero => exact ⟨1, one_ne_zero, by simp [← Point.zero_def], by simp [← Point.zero_def]⟩
  | some x y h =>
    have hZ : 4 * x * (x ^ 2 + 486662 * x + 1) = 4 * y ^ 2 := by
      rw [equation_of_nonsingular h]
      ring
    by_cases hy : y = 0
    · subst hy
      have hsum : Point.some x 0 h + Point.some x 0 h = 0 :=
        Point.add_self_of_Y_eq (by rw [negY_montgomeryCurve, neg_zero])
      refine ⟨(x ^ 2 - 1) ^ 2, pow_ne_zero 2 (sq_ne_one_of_nonsingular h), ?_, ?_⟩
      · simp [hsum]
      · simpa [hsum] using hZ
    · refine ⟨4 * y ^ 2, mul_ne_zero four_ne_zero_mod_P (pow_ne_zero 2 hy), ?_, ?_⟩
      · rw [Point.add_self_of_Y_ne (ne_negY_of_ne_zero x hy)]
        simpa using addX_self h hy
      · rw [Point.add_self_of_Y_ne (ne_negY_of_ne_zero x hy)]
        simpa using hZ

/-- Differential addition of two points with different x-coordinates: the factor is u * (x₁ - x₂)^2. -/
theorem add_xRep_of_X_ne {x₁ y₁ x₂ y₂ u : ZMod P} (h₁ : montgomeryCurve.Nonsingular x₁ y₁)
    (h₂ : montgomeryCurve.Nonsingular x₂ y₂) (hx : x₁ ≠ x₂)
    (hdiff : (Point.some _ _ h₁ - Point.some _ _ h₂).xRep = ![u, 1]) :
    (x₁ * x₂ - 1) ^ 2 = u * (x₁ - x₂) ^ 2 * (Point.some _ _ h₁ + Point.some _ _ h₂).xRep 0 ∧
      (Point.some _ _ h₁ + Point.some _ _ h₂).xRep 1 = 1 := by
  rw [sub_eq_add_neg, Point.neg_some, Point.add_of_X_ne hx, Point.xRep_some, negY_montgomeryCurve] at hdiff
  have hu : montgomeryCurve.addX x₁ x₂ (montgomeryCurve.slope x₁ x₂ y₁ (-y₂)) = u := congrFun hdiff 0
  rw [Point.add_of_X_ne hx, Point.xRep_some]
  exact ⟨hu ▸ addX_mul_subX h₁ h₂ hx, rfl⟩

/-- Differential addition of a point and its opposite: the difference is a double, and the sum is the point at infinity. -/
theorem add_xRep_of_neg {D : montgomeryCurve.Point} {u : ZMod P} (hdiff : (-D - D).xRep = ![u, 1]) :
    ∃ c : ZMod P, c ≠ 0 ∧ (D.xRep 0 ^ 2 - D.xRep 1 ^ 2) ^ 2 = c * u := by
  rw [← neg_add', Point.xRep_neg] at hdiff
  obtain ⟨c, hc, hX, -⟩ := double_xRep D
  exact ⟨c, hc, by simpa [hdiff] using hX⟩

/-- The differential-addition formula on the representatives of two points whose difference has x-coordinate u gives a
multiple of the representative of their sum. -/
theorem add_xRep {A D : montgomeryCurve.Point} {u : ZMod P} (hu : u ≠ 0) (hdiff : (A - D).xRep = ![u, 1]) :
    ∃ c : ZMod P, c ≠ 0 ∧
      (A.xRep 0 * D.xRep 0 - A.xRep 1 * D.xRep 1) ^ 2 = c * (A + D).xRep 0 ∧
      u * (A.xRep 0 * D.xRep 1 - A.xRep 1 * D.xRep 0) ^ 2 = c * (A + D).xRep 1 := by
  by_cases hx : A.xRep = D.xRep
  · rcases Point.eq_or_eq_neg_of_xRep_eq_xRep hx with rfl | rfl
    · rw [sub_self] at hdiff
      simp at hdiff
    · obtain ⟨c, hc, hX⟩ := add_xRep_of_neg hdiff
      refine ⟨c * u, mul_ne_zero hc hu, ?_, ?_⟩
      · simpa [← pow_two] using hX
      · simp [mul_comm]
  match A, D with
  | 0, D =>
    rw [zero_sub, Point.xRep_neg] at hdiff
    exact ⟨u, hu, by simp [hdiff, pow_two], by simp [hdiff]⟩
  | .some x₁ y₁ h₁, 0 =>
    rw [sub_zero] at hdiff
    exact ⟨u, hu, by simp [hdiff, pow_two], by simp [hdiff]⟩
  | .some x₁ y₁ h₁, .some x₂ y₂ h₂ =>
    have hne : x₁ ≠ x₂ := fun h => hx (by simp [h])
    obtain ⟨hX, hZ⟩ := add_xRep_of_X_ne h₁ h₂ hne hdiff
    refine ⟨u * (x₁ - x₂) ^ 2, mul_ne_zero hu (pow_ne_zero 2 (sub_ne_zero.2 hne)), ?_, ?_⟩
    · simpa using hX
    · simp [hZ]

/-- The new double target represents twice the point (R171, R173). -/
theorem represents_mdaDouble {td : Point} {D : montgomeryCurve.Point} (h : represents td D) :
    represents (mdaDouble td) (D + D) := by
  obtain ⟨c, hc, hX, hZ⟩ := represents_iff.1 h
  obtain ⟨d, hd, hdX, hdZ⟩ := double_xRep D
  refine represents_iff.2 ⟨c ^ 4 * d, mul_ne_zero (pow_ne_zero 4 hc) hd, ?_, ?_⟩
  · rw [cast_mdaDouble_X, hX, hZ]
    linear_combination c ^ 4 * hdX
  · rw [cast_mdaDouble_Z, hX, hZ]
    linear_combination c ^ 4 * hdZ

/-- The new add target represents the sum, when the difference has the x-coordinate u (R171, R173). -/
theorem represents_mdaAdd {ta td : Point} {u : Nat} {A D : montgomeryCurve.Point} (hu : (u : ZMod P) ≠ 0)
    (ha : represents ta A) (hd : represents td D) (hdiff : (A - D).xRep = ![(u : ZMod P), 1]) :
    represents (mdaAdd ta td u) (A + D) := by
  obtain ⟨ca, hca, haX, haZ⟩ := represents_iff.1 ha
  obtain ⟨cd, hcd, hdX, hdZ⟩ := represents_iff.1 hd
  obtain ⟨c, hc, hX, hZ⟩ := add_xRep hu hdiff
  refine represents_iff.2 ⟨4 * (ca * cd) ^ 2 * c,
    mul_ne_zero (mul_ne_zero four_ne_zero_mod_P (pow_ne_zero 2 (mul_ne_zero hca hcd))) hc, ?_, ?_⟩
  · rw [cast_mdaAdd_X, haX, haZ, hdX, hdZ]
    linear_combination 4 * (ca * cd) ^ 2 * hX
  · rw [cast_mdaAdd_Z, haX, haZ, hdX, hdZ]
    linear_combination 4 * (ca * cd) ^ 2 * hZ

end Curve

/-- Settles O42: B and -B have one x-coordinate, which is all the add target's formula asks of the difference. -/
theorem ladderStepDoublesAndAdds : Obligations.LadderStepDoublesAndAdds := by
  intro _ ta td u y h A D hu ha hd hdiff
  refine ⟨represents_mdaDouble hd, represents_mdaAdd hu ha hd ?_⟩
  rcases hdiff with hdiff | hdiff
  · rw [hdiff, Point.xRep_some]
  · rw [← neg_sub, Point.xRep_neg, hdiff, Point.xRep_some]
end Sys2Proof.Machine

/-! PROOF. The ladder on the curve (spec/42_curve25519.md R175 to R181): the invariant of the bit loop, and the result as the
x-coordinate of the scalar multiple. -/

namespace Sys2Proof.Machine

open Sys2Proof.Config (P)
open WeierstrassCurve.Affine

/-! ### The bit loop -/

/-- The loop's last step is that of bit 0; the ones before it are the loop of the scalar shifted by one bit. -/
theorem ladderLoop_succ (a : Operand) (u n : Nat) (p : Points) :
    ladderLoop a u (n + 1) p = ladderStep u (a.getLsbD 0) (ladderLoop (a >>> 1) u n p) := by
  induction n generalizing p with
  | zero => rfl
  | succ n ih =>
    have hbit : (a >>> 1).getLsbD n = a.getLsbD (n + 1) := by rw [BitVec.getLsbD_ushiftRight, Nat.add_comm]
    rw [ladderLoop, ih, ladderLoop, hbit]

/-- The loop of n bits reads the lowest n bits of the scalar only. -/
theorem ladderLoop_congr {a a' : Operand} (u : Nat) {n : Nat} (h : ∀ j < n, a.getLsbD j = a'.getLsbD j) (p : Points) :
    ladderLoop a u n p = ladderLoop a' u n p := by
  induction n generalizing p with
  | zero => rfl
  | succ n ih => rw [ladderLoop, ladderLoop, h n n.lt_succ_self, ih fun j hj => h j (by omega)]

/-- Below bit 254, bit i of the effective scalar is bit i of the scalar (R175). -/
theorem effectiveScalar_testBit (a : Operand) {i : Nat} (hi : i < 254) : (effectiveScalar a).testBit i = a.getLsbD i := by
  rw [effectiveScalar, Nat.testBit_two_pow_add_gt hi, Nat.testBit_mod_two_pow, decide_eq_true hi, Bool.true_and]
  rfl

/-- The leading bits of the effective scalar, from one bit to the next (R181). -/
theorem effectiveScalar_div_succ (a : Operand) {i : Nat} (hi : i < 254) :
    effectiveScalar a / 2 ^ i = 2 * (effectiveScalar a / 2 ^ (i + 1)) + (a.getLsbD i).toNat := by
  rw [← effectiveScalar_testBit a hi, Nat.toNat_testBit, pow_succ, ← Nat.div_div_eq_div_mul, Nat.div_add_mod]

/-- The top bit of the effective scalar is bit 254 (R175). -/
theorem effectiveScalar_div_top (a : Operand) : effectiveScalar a / 2 ^ 254 = 1 := by
  unfold effectiveScalar
  omega

/-! ### The invariant -/

section Invariant

variable [Fact (Nat.Prime P)]

/-- The two slots represent m * B and (m + 1) * B (R181). -/
def LadderAt (p : Points) (B : montgomeryCurve.Point) (m : Nat) : Prop :=
  represents p.q0 (m • B) ∧ represents p.q1 ((m + 1) • B)

/-- Q0 and Q1 start as 0 and B (R177). -/
theorem ladderAt_init {u : Nat} {y : ZMod P} (h : montgomeryCurve.Nonsingular (u : ZMod P) y) :
    LadderAt (ladderInit u) (Point.some _ _ h) 0 := by
  rw [LadderAt, zero_nsmul, zero_add, one_nsmul]
  exact ⟨⟨Nat.cast_zero, by simp [ladderInit]⟩, by simp [ladderInit], by simp [ladderInit]⟩

/-- One step appends the bit b to m: the slot of b is doubled, the other one becomes the sum (R179, R181). -/
theorem LadderAt.step {u : Nat} {y : ZMod P} (h : montgomeryCurve.Nonsingular (u : ZMod P) y) (hu : (u : ZMod P) ≠ 0)
    {p : Points} {m : Nat} (hp : LadderAt p (Point.some _ _ h) m) (b : Bool) :
    LadderAt (ladderStep u b p) (Point.some _ _ h) (2 * m + b.toNat) := by
  obtain ⟨h0, h1⟩ := hp
  have hdiff : (m + 1) • Point.some _ _ h - m • Point.some _ _ h = Point.some _ _ h := by
    rw [succ_nsmul, add_sub_cancel_left]
  cases b with
  | false =>
    have hm : 2 * m + false.toNat = m + m := by rw [Bool.toNat_false, add_zero, two_mul]
    rw [hm, LadderAt, add_right_comm, add_nsmul, add_nsmul (m := m + 1)]
    exact ⟨represents_mdaDouble h0, represents_mdaAdd hu h1 h0 (by rw [hdiff, Point.xRep_some])⟩
  | true =>
    have hm : 2 * m + true.toNat = m + (m + 1) := by rw [Bool.toNat_true, two_mul, add_assoc]
    rw [hm, LadderAt, add_right_comm, add_nsmul, add_nsmul (m := m + 1)]
    exact ⟨represents_mdaAdd hu h0 h1 (by rw [← neg_sub, Point.xRep_neg, hdiff, Point.xRep_some]),
      represents_mdaDouble h1⟩

/-- The invariant of the ladder after the priming step and n more steps, by induction on n (R181). -/
theorem ladderAt_loop (a : Operand) {u : Nat} {y : ZMod P} (h : montgomeryCurve.Nonsingular (u : ZMod P) y)
    (hu : (u : ZMod P) ≠ 0) (n : Nat) (hn : n ≤ 254) :
    LadderAt (ladderLoop (a >>> (254 - n)) u n (ladderStep u true (ladderInit u))) (Point.some _ _ h)
      (effectiveScalar a / 2 ^ (254 - n)) := by
  induction n with
  | zero =>
    rw [Nat.sub_zero, effectiveScalar_div_top]
    exact (ladderAt_init h).step h hu true
  | succ n ih =>
    have hi : 254 - n = 254 - (n + 1) + 1 := by omega
    have hbit : (a >>> (254 - (n + 1))).getLsbD 0 = a.getLsbD (254 - (n + 1)) := by
      rw [BitVec.getLsbD_ushiftRight, add_zero]
    rw [ladderLoop_succ, hbit, ← BitVec.shiftRight_add, ← hi, effectiveScalar_div_succ a (by omega), ← hi]
    exact (ih (by omega)).step h hu _

/-- The invariant at the end of the ladder (R180, R181). -/
theorem ladderAt_ladderPoints (a : Operand) {u : Nat} {y : ZMod P} (h : montgomeryCurve.Nonsingular (u : ZMod P) y)
    (hu : (u : ZMod P) ≠ 0) : LadderAt (ladderPoints a u) (Point.some _ _ h) (effectiveScalar a) := by
  have hloop := ladderAt_loop a h hu Config.ladderBits le_rfl
  have hzero : 254 - Config.ladderBits = 0 := rfl
  rwa [hzero, BitVec.ushiftRight_zero, pow_zero, Nat.div_one] at hloop

end Invariant

/-- Settles O43: the loop of 254 - i steps leaves bit i as the next one. -/
theorem ladderInvariant : Obligations.LadderInvariant := by
  intro _ a u y h i hu hi
  have hloop := ladderAt_loop a h hu (254 - i) (by omega)
  rwa [Nat.sub_sub_self hi] at hloop

/-! ### The result -/

theorem exec_curve25519Ladder (rd ra rb : Reg) (s : State) :
    exec (.curve25519Ladder rd ra rb) s = scalarFieldOp rd ra rb ladder s := rfl

/-- The ladder's result is the quotient of slot 0, by the power of R180. -/
theorem ladder_eq_fpow (a : Operand) (u : Nat) :
    ladder a u = fmul (ladderPoints a u).q0.X (fpow (ladderPoints a u).q0.Z (P - 2)) := by
  rw [ladder, invChain_eq_fpow]

/-- The ladder's form leaves one of two states: the result written, or the range error of the base point (R180). -/
theorem scalarFieldOp_result (rd ra rb : Reg) (f : Operand → Nat → Nat) (s : State) :
    (s.val rb < P → scalarFieldOp rd ra rb f s = .next
      { s with
        x := s.x.set rd.val (BitVec.ofNat 256 (f (s.getX ra) (s.val rb))) rd.isLt
        status := statusOk s.status }) ∧
    (P ≤ s.val rb → scalarFieldOp rd ra rb f s = .next { s with status := statusRange s.status }) := by
  refine ⟨fun h => ?_, fun h => ?_⟩
  · rw [scalarFieldOp_of_lt h, State.complete_setNat_eq]
  · rw [scalarFieldOp_of_le h, State.raise_range]

/-- Settles O37: the ladder under the check of the base point. -/
theorem ladderResult : Obligations.LadderResult := by
  refine ⟨wordsOf_threeOperands (op := 0x20#8) (fun _ _ _ => rfl) (fun _ _ _ => rfl), fun rd ra rb s => ?_⟩
  rw [exec_curve25519Ladder, ← ladder_eq_fpow]
  exact scalarFieldOp_result rd ra rb ladder s

/-! ### The degenerate ladders -/

theorem slot_ladderStep (u : Nat) (b c : Bool) (p : Points) :
    (ladderStep u b p).slot c = if c = b then mdaDouble (p.slot b) else mdaAdd (p.slot (!b)) (p.slot b) u := by
  cases b <;> cases c <;> rfl

theorem mdaDouble_Z_eq_zero {td : Point} (h : td.X = 0 ∨ td.Z = 0) : (mdaDouble td).Z = 0 := by
  refine eq_of_cast_eq (fmul_lt _ _) P_pos ?_
  rw [cast_mdaDouble_Z]
  rcases h with h | h <;> simp [h]

/-- With base point 0 a step leaves Z = 0 in both slots when X or Z was 0 in each. -/
theorem ladderStep_zero_Z {p : Points} (h : ∀ c, (p.slot c).X = 0 ∨ (p.slot c).Z = 0) (b c : Bool) :
    ((ladderStep 0 b p).slot c).Z = 0 := by
  rw [slot_ladderStep]
  split
  · exact mdaDouble_Z_eq_zero (h b)
  · simp [mdaAdd, fmul]

/-- With base point 0 the loop keeps Z = 0 in both slots. -/
theorem ladderLoop_zero_Z (a : Operand) (n : Nat) {p : Points} (h : ∀ c, (p.slot c).Z = 0) (c : Bool) :
    ((ladderLoop a 0 n p).slot c).Z = 0 := by
  induction n generalizing p with
  | zero => exact h c
  | succ n ih => exact ih (ladderStep_zero_Z (fun c => .inr (h c)) _)

/-- With base point 0 the ladder ends with Z0 = 0 (R180). -/
theorem ladderPoints_zero_Z (a : Operand) : (ladderPoints a 0).q0.Z = 0 := by
  have hinit : ∀ c, ((ladderInit 0).slot c).X = 0 ∨ ((ladderInit 0).slot c).Z = 0 := by decide
  exact ladderLoop_zero_Z a _ (ladderStep_zero_Z hinit true) false

theorem fpow_zero {e : Nat} (he : e ≠ 0) : fpow 0 e = 0 := by simp [fpow, he]

/-- A ladder that ends with Z0 = 0 has the result 0, since 0^(P-2) is 0 (R180). -/
theorem ladder_eq_zero {a : Operand} {u : Nat} (h : (ladderPoints a u).q0.Z = 0) : ladder a u = 0 := by
  rw [ladder_eq_fpow, h, fpow_zero (by decide), fmul, mul_zero, Nat.zero_mod]

/-- Settles O41: base point 0 is a case of Z0 = 0. -/
theorem degenerateLadderGivesZero : Obligations.DegenerateLadderGivesZero := by
  intro s rd ra rb h
  have hZ : s.val rb < P ∧ (ladderPoints (s.getX ra) (s.val rb)).q0.Z = 0 := by
    rcases h with h | h
    · rw [h]
      exact ⟨P_pos, ladderPoints_zero_Z _⟩
    · exact h
  rw [exec_curve25519Ladder, (scalarFieldOp_result rd ra rb ladder s).1 hZ.1, ladder_eq_zero hZ.2]

/-! ### The scalar multiple -/

section ScalarMultiple

variable [Fact (Nat.Prime P)]

/-- The power P - 2 is the inverse of a nonzero residue (Fermat; R146). -/
theorem mul_pow_P_sub_two {z : ZMod P} (hz : z ≠ 0) : z * z ^ (P - 2) = 1 := by
  have hexp : P - 2 + 1 = P - 1 := by decide
  rw [← pow_succ', hexp, ZMod.pow_card_sub_one_eq_one hz]

/-- The x-coordinate of a point, 0 for the point at infinity: what the ladder answers for it (R180). -/
def affineX : montgomeryCurve.Point → ZMod P
  | .zero => 0
  | .some x _ _ => x

/-- X0 * Z0^(P-2) is the x-coordinate of the point that (X0 : Z0) represents (R180). -/
theorem cast_quotient_of_represents {T : Point} {Q : montgomeryCurve.Point} (h : represents T Q) :
    (fmul T.X (fpow T.Z (P - 2)) : ZMod P) = affineX Q := by
  have hexp : P - 2 ≠ 0 := by decide
  rw [cast_fmul, cast_fpow]
  cases Q with
  | zero =>
    obtain ⟨hZ, -⟩ := h
    rw [hZ, zero_pow hexp, mul_zero, affineX]
  | some x y hQ =>
    obtain ⟨hZ, hX⟩ := h
    rw [hX, mul_assoc, mul_pow_P_sub_two hZ, mul_one, affineX]

/-- A point with x-coordinate 0 has order two, so its multiples have x-coordinate 0 or are at infinity. -/
theorem affineX_nsmul_of_zero {x y : ZMod P} (h : montgomeryCurve.Nonsingular x y) (hx : x = 0) (k : Nat) :
    affineX (k • Point.some _ _ h) = 0 := by
  have hy : y = 0 := by simpa [hx] using equation_of_nonsingular h
  have hdouble : 2 • Point.some _ _ h = 0 := by
    rw [two_nsmul]
    exact Point.add_self_of_Y_eq (by rw [negY_montgomeryCurve, hy, neg_zero])
  rw [← Nat.div_add_mod k 2, add_nsmul, mul_nsmul, hdouble, nsmul_zero, zero_add]
  rcases Nat.mod_two_eq_zero_or_one k with hk | hk <;> rw [hk]
  · rw [zero_nsmul, Point.zero_def, affineX]
  · rw [one_nsmul, affineX, hx]

/-- The ladder computes the x-coordinate of k * B, for every base point of the curve (R175, R180, R181). -/
theorem cast_ladder (a : Operand) {u : Nat} {y : ZMod P} (h : montgomeryCurve.Nonsingular (u : ZMod P) y) (hu : u < P) :
    (ladder a u : ZMod P) = affineX (effectiveScalar a • Point.some _ _ h) := by
  by_cases h0 : u = 0
  · have hzero : ladder a u = 0 := by
      rw [h0]
      exact ladder_eq_zero (ladderPoints_zero_Z a)
    rw [hzero, Nat.cast_zero, affineX_nsmul_of_zero h (by rw [h0, Nat.cast_zero])]
  · have hu0 : (u : ZMod P) ≠ 0 := fun hc => h0 (eq_of_cast_eq hu P_pos (by rw [hc, Nat.cast_zero]))
    obtain ⟨hslot, -⟩ := ladderAt_ladderPoints a h hu0
    rw [ladder_eq_fpow, cast_quotient_of_represents hslot]

end ScalarMultiple

/-- Settles O44: the result register holds the ladder, which is the x-coordinate of k * B or 0. -/
theorem ladderComputesScalarMultiple : Obligations.LadderComputesScalarMultiple := by
  intro _ s rd ra rb y h hlt
  have hcast := cast_ladder (s.getX ra) h hlt
  have hval : ((s.setNat rd (ladder (s.getX ra) (s.val rb))).complete).val rd = ladder (s.getX ra) (s.val rb) :=
    s.val_setNat_self rd _ ((ladder_lt _ _).trans P_lt)
  refine ⟨_, scalarFieldOp_of_lt hlt, by rw [hval]; exact ladder_lt _ _, ?_⟩
  rw [hval]
  generalize effectiveScalar (s.getX ra) • Point.some _ y h = Q at hcast
  cases Q with
  | zero => exact eq_of_cast_eq (ladder_lt _ _) P_pos (hcast.trans Nat.cast_zero.symm)
  | some x y' hQ => exact hcast

/-! ### The scalar's top bits -/

/-- Scalars that agree modulo 2^254 have one ladder (R175). -/
theorem ladder_congr {a a' : Operand} (h : a.toNat % 2 ^ 254 = a'.toNat % 2 ^ 254) (u : Nat) :
    ladder a u = ladder a' u := by
  have hbits : ∀ j < 254, a.getLsbD j = a'.getLsbD j := fun j hj => by
    have hbit := congrArg (Nat.testBit · j) h
    rwa [Nat.testBit_mod_two_pow, Nat.testBit_mod_two_pow, decide_eq_true hj, Bool.true_and, Bool.true_and] at hbit
  rw [ladder, ladder, ladderPoints, ladderPoints, ladderLoop_congr (n := Config.ladderBits) u hbits]

/-- Writes to two registers may be exchanged. -/
theorem State.setX_comm (s : State) {r q : Reg} (h : r ≠ q) (v w : Operand) :
    (s.setX r v).setX q w = (s.setX q w).setX r v := by
  rw [State.setX, State.setX, State.setX, State.setX, Vector.set_comm _ _ (Fin.val_ne_of_ne h)]

/-- Settles O40: the scalar decides neither the check nor, beyond its low 254 bits, the ladder, and it is not overwritten. -/
theorem ladderIgnoresTopScalarBits : Obligations.LadderIgnoresTopScalarBits := by
  intro s rd ra rb a hab had h
  have hb : (s.setX ra a).val rb = s.val rb := by rw [State.val, State.getX_setX_of_ne _ _ _ _ hab.symm, State.val]
  rw [exec_curve25519Ladder, exec_curve25519Ladder]
  rcases lt_or_ge (s.val rb) P with hlt | hge
  · refine ⟨_, _, scalarFieldOp_of_lt hlt, scalarFieldOp_of_lt (hb.trans_lt hlt), ?_⟩
    rw [hb, State.getX_setX_self, ladder_congr h, State.setNat, State.setX_comm s had]
    rfl
  · exact ⟨_, _, scalarFieldOp_of_le hge, scalarFieldOp_of_le (hb.symm ▸ hge), rfl⟩

end Sys2Proof.Machine

/-! PROOF. What a command writes and what it depends on (spec/30_encoding.md R73; spec/10_state.md R24, R27, R28; spec/00_scope.md
R8; spec/70_reset_and_hazards.md R243). -/

namespace Sys2Proof.Machine

open Sys2Proof.Config (P)

/-! ### RES -/

/-- A command that changes RES is one of those that write it, and has succeeded (R24). -/
theorem Ending.of_res_ne {i : Instr} {s t : State} (h : Ending i s t) (hres : t.res ≠ s.res) :
    i.writesRes = true ∧ errField t.status = 0#4 := by
  cases h with
  | illegal | range => exact absurd rfl hres
  | done u _ _ _ hkeep =>
    refine ⟨?_, errField_statusAfter .ok u.status⟩
    by_contra hw
    exact hres (hkeep (Bool.eq_false_iff.2 hw))

/-- Settles O18: of the commands only three write RES, and an illegal word writes STATUS alone. -/
theorem onlyThreeCommandsWriteRes : Obligations.OnlyThreeCommandsWriteRes := by
  intro w s t h hres
  obtain ⟨u, hu, hend⟩ := runCommand_ending w s
  obtain rfl : t = u := Host.Outcome.next.inj (h.symm.trans hu)
  rcases hend with ⟨i, hd, hend⟩ | ⟨-, rfl⟩
  · obtain ⟨hw, herr⟩ := hend.of_res_ne hres
    refine ⟨herr, ?_⟩
    cases i with
    | mpiAdd rd ra rb => exact .inl ⟨rd, ra, rb, hd⟩
    | mpiSubBorrow rd ra rb => exact .inr (.inl ⟨rd, ra, rb, hd⟩)
    | mpiCmp ra rb => exact .inr (.inr ⟨ra, rb, hd⟩)
    | mpiWideningMult | f25519Reduce | f25519Add | f25519Sub | f25519Mult | f25519Inv | f25519Serialize
      | f25519Deserialize | curve25519Ladder => cases hw
  · exact absurd rfl hres

/-! ### What a command leaves unchanged -/

/-- The registers a command leaves alone, however it ends (R73, R24, R27, R202). -/
theorem Ending.registers {i : Instr} {s t : State} (h : Ending i s t) :
    (∀ r, r ∉ i.dests → t.getX r = s.getX r) ∧ (i.writesRes = false → t.res = s.res) ∧
      t.reply = s.reply ∧ t.draws = s.draws := by
  cases h with
  | illegal | range => exact ⟨fun _ _ => rfl, fun _ => rfl, rfl, rfl⟩
  | done u _ _ hx hres _ _ _ _ hrep hdr => exact ⟨hx, hres, hrep, hdr⟩

/-- The word of an offset that lies in a register's window bytes (R51). -/
theorem inRegister_of_windowReg {o : Offset} {i : Reg} {j : DigitIx} (h : windowReg o = .digit i j) : inRegister o i := by
  unfold windowReg at h
  split_ifs at h with hlt
  obtain ⟨rfl, -⟩ := WindowReg.digit.inj h
  have hi : (Fin.ofNat 16 (o.toNat / 0x20)).val = o.toNat / 0x20 := Nat.mod_eq_of_lt (by omega)
  unfold inRegister
  omega

theorem toNat_of_windowReg_status {o : Offset} (h : windowReg o = .status) : 0x204 ≤ o.toNat ∧ o.toNat < 0x208 := by
  unfold windowReg at h
  split_ifs at h with _ _ hword
  omega

theorem toNat_of_windowReg_res {o : Offset} (h : windowReg o = .res) : 0x208 ≤ o.toNat ∧ o.toNat < 0x20C := by
  unfold windowReg at h
  split_ifs at h with _ _ _ hword
  omega

/-- Settles O19: the register frame is that of the endings, and a window byte is a view of the register at its word. -/
theorem commandFrame : Obligations.CommandFrame := by
  intro i s t hexec
  have hend := ending_of_exec hexec
  obtain ⟨hx, hres, hrep, hdr⟩ := hend.registers
  obtain ⟨⟨c, hst⟩, hcmd, hpend⟩ := hend.status_and_frame
  refine ⟨hx, hres, fun k h4 h8 => by rw [hst, getLsbD_statusAfter c _ k h4 h8], hcmd, hpend, hrep, hdr,
    fun o hdest hnstatus hnres => ?_⟩
  rw [State.windowByte, State.windowByte, State.memRead, State.memRead]
  congr 1
  cases ho : windowReg o with
  | digit r j =>
    rw [State.readReg, State.readReg, hx r fun hr => hdest r hr (inRegister_of_windowReg ho)]
  | cmd => exact hcmd
  | status => exact absurd (toNat_of_windowReg_status ho) hnstatus
  | res => exact hres (Bool.eq_false_iff.2 fun hw => hnres hw (toNat_of_windowReg_res ho))
  | id | reserved => rfl

/-! ### What a command depends on -/

/-- The two states show the same code and, when it is 0, the same results of the command (R8). -/
def SameResults (i : Instr) (s t : State) : Prop :=
  errField s.status = errField t.status ∧
    (errField s.status = 0#4 → (∀ r ∈ i.dests, s.getX r = t.getX r) ∧ (i.writesRes = true → s.res = t.res))

theorem sameResults_raise (i : Instr) (s t : State) {c : ErrorCode} (hc : c ≠ .ok) :
    SameResults i (s.raise c) (t.raise c) := by
  refine ⟨by simp, fun h => absurd ((bits_eq_zero_iff c).1 ?_) hc⟩
  simpa using h

theorem sameResults_complete {i : Instr} {s t : State} (hx : ∀ r ∈ i.dests, s.getX r = t.getX r)
    (hres : i.writesRes = true → s.res = t.res) : SameResults i s.complete t.complete :=
  ⟨by simp, fun _ => ⟨hx, hres⟩⟩

/-- A command with one destination that completes with the same integer, and with the same word where it writes RES. -/
theorem sameResults_setNat {i : Instr} {rd : Reg} (hd : i.dests = [rd]) {s t : State} (n : Nat) {w w' : Word}
    (hw : i.writesRes = true → w = w') :
    SameResults i ((s.setNat rd n).setRes w).complete ((t.setNat rd n).setRes w').complete := by
  refine sameResults_complete (fun r hr => ?_) hw
  rw [hd, List.mem_singleton] at hr
  exact hr ▸ (s.getX_setNat_self rd n).trans (t.getX_setNat_self rd n).symm

/-- A field command whose check and result are the same in both states (R131). -/
theorem sameResults_ite {i : Instr} {rd : Reg} (hd : i.dests = [rd]) (hw : i.writesRes = false) {s t s' t' : State}
    {inRange : Bool} {n : Nat}
    (hs : (if inRange then .next (s.setNat rd n).complete else .next (s.raise .range) : Result) = .next s')
    (ht : (if inRange then .next (t.setNat rd n).complete else .next (t.raise .range) : Result) = .next t') :
    SameResults i s' t' := by
  cases inRange with
  | true =>
    cases hs
    cases ht
    exact sameResults_setNat hd n (w := s.res) (w' := t.res) fun h => absurd h (by simp [hw])
  | false =>
    cases hs
    cases ht
    exact sameResults_raise i s t (by decide)

theorem sameResults_fieldUnary {i : Instr} {rd ra : Reg} (hd : i.dests = [rd]) (hw : i.writesRes = false)
    {f : Nat → Nat} {s t s' t' : State} (ha : t.val ra = s.val ra) (hs : fieldUnary rd ra f s = .next s')
    (ht : fieldUnary rd ra f t = .next t') : SameResults i s' t' := by
  rw [fieldUnary] at hs ht
  rw [ha] at ht
  exact sameResults_ite hd hw hs ht

theorem sameResults_fieldBinary {i : Instr} {rd ra rb : Reg} (hd : i.dests = [rd]) (hw : i.writesRes = false)
    {f : Nat → Nat → Nat} {s t s' t' : State} (ha : t.val ra = s.val ra) (hb : t.val rb = s.val rb)
    (hs : fieldBinary rd ra rb f s = .next s') (ht : fieldBinary rd ra rb f t = .next t') : SameResults i s' t' := by
  rw [fieldBinary] at hs ht
  rw [ha, hb] at ht
  exact sameResults_ite hd hw hs ht

/-- A pair written with the same integer. -/
theorem sameResults_mpiWideningMult (rd ra rb : Reg) (s t : State) (p : Nat) :
    SameResults (.mpiWideningMult rd ra rb) (s.setPair rd p).complete (t.setPair rd p).complete := by
  refine sameResults_complete (fun r hr => ?_) fun h => by cases h
  have hlow : (s.setPair rd p).getX rd = (t.setPair rd p).getX rd :=
    BitVec.eq_of_toNat_eq ((s.val_setPair_low rd p).trans (t.val_setPair_low rd p).symm)
  have hhigh : (s.setPair rd p).getX (pairHigh rd) = (t.setPair rd p).getX (pairHigh rd) := by
    rw [State.setPair, State.setPair, State.getX_setNat_self, State.getX_setNat_self]
  simp only [Instr.dests, List.mem_cons, List.not_mem_nil, or_false] at hr
  rcases hr with rfl | rfl
  · exact hlow
  · exact hhigh

/-- Every command computes its code and its results from the values of its sources (R8, R183). -/
theorem sameResults_of_exec {i : Instr} {s t s' t' : State} (hsrc : ∀ r ∈ i.sources, s.getX r = t.getX r)
    (hs : exec i s = .next s') (ht : exec i t = .next t') : SameResults i s' t' := by
  have hval : ∀ r ∈ i.sources, t.val r = s.val r := fun r hr => congrArg BitVec.toNat (hsrc r hr).symm
  cases i with
  | mpiAdd rd ra rb =>
    rw [exec_mpiAdd] at hs ht
    rw [hval ra (.head _), hval rb (.tail _ (.head _))] at ht
    cases hs
    cases ht
    exact sameResults_setNat rfl _ fun _ => rfl
  | mpiSubBorrow rd ra rb =>
    rw [exec_mpiSubBorrow] at hs ht
    rw [hval ra (.head _), hval rb (.tail _ (.head _))] at ht
    cases hs
    cases ht
    exact sameResults_setNat rfl _ fun _ => rfl
  | mpiCmp ra rb =>
    cases hs
    cases ht
    refine sameResults_complete (fun r hr => by cases hr) fun _ => ?_
    rw [State.setRes_res, State.setRes_res, hval ra (.head _), hval rb (.tail _ (.head _))]
  | mpiWideningMult rd ra rb =>
    by_cases heven : evenPair rd = true
    · rw [exec_mpiWideningMult_of_even (beq_iff_eq.1 heven)] at hs ht
      rw [hval ra (.head _), hval rb (.tail _ (.head _))] at ht
      cases hs
      cases ht
      exact sameResults_mpiWideningMult rd ra rb s t _
    · obtain rfl : s.raise .illegal = s' := Host.Outcome.next.inj ((if_neg heven).symm.trans hs)
      obtain rfl : t.raise .illegal = t' := Host.Outcome.next.inj ((if_neg heven).symm.trans ht)
      exact sameResults_raise _ s t (by decide)
  | f25519Reduce rd ra =>
    rw [exec_f25519Reduce] at hs ht
    rw [hval ra (.head _)] at ht
    cases hs
    cases ht
    exact sameResults_setNat rfl _ (w := s.res) (w' := t.res) fun h => by cases h
  | f25519Add rd ra rb => exact sameResults_fieldBinary rfl rfl (hval ra (.head _)) (hval rb (.tail _ (.head _))) hs ht
  | f25519Sub rd ra rb => exact sameResults_fieldBinary rfl rfl (hval ra (.head _)) (hval rb (.tail _ (.head _))) hs ht
  | f25519Mult rd ra rb => exact sameResults_fieldBinary rfl rfl (hval ra (.head _)) (hval rb (.tail _ (.head _))) hs ht
  | f25519Inv rd ra => exact sameResults_fieldUnary rfl rfl (hval ra (.head _)) hs ht
  | f25519Serialize rd ra => exact sameResults_fieldUnary (f := fun v => v) rfl rfl (hval ra (.head _)) hs ht
  | f25519Deserialize rd ra => exact sameResults_fieldUnary (f := fun v => v) rfl rfl (hval ra (.head _)) hs ht
  | curve25519Ladder rd ra rb =>
    rw [exec_curve25519Ladder, scalarFieldOp] at hs ht
    rw [hval rb (.tail _ (.head _)), ← hsrc ra (.head _)] at ht
    exact sameResults_ite rfl rfl hs ht

/-- Settles O20: the conclusion is SameResults, written out. -/
theorem resultDependsOnSourcesOnly : Obligations.ResultDependsOnSourcesOnly := fun _ _ _ _ _ => sameResults_of_exec

/-! ### Laws of the commands -/

/-- Settles O33: both copy a source that is below P. -/
theorem serializeEqualsDeserialize : Obligations.SerializeEqualsDeserialize := fun rd ra s =>
  (exec_f25519Serialize rd ra s).trans (exec_f25519Deserialize rd ra s).symm

/-- The wrapped difference and the subtrahend add up to the minuend, past 2^256 exactly on a borrow (R104). -/
theorem subWrap_add {a b : Nat} (ha : a < 2 ^ 256) (hb : b < 2 ^ 256) :
    subWrap a b + b = if a < b then a + 2 ^ 256 else a := by
  unfold subWrap
  split <;> omega

theorem subWrap_lt (a b : Nat) : subWrap a b < 2 ^ 256 := Nat.mod_lt _ (by positivity)

/-- The sum of the wrapped difference and b is a, and its carry is the borrow (R117). -/
theorem add_subWrap {a b : Nat} (ha : a < 2 ^ 256) (hb : b < 2 ^ 256) :
    (subWrap a b + b) % 2 ^ 256 = a ∧
      ((borrowWord a b = 0xFFFFFFFF#32 ∧ carryWord (subWrap a b + b) = 0x00000001#32) ∨
        (borrowWord a b = 0x00000000#32 ∧ carryWord (subWrap a b + b) = 0x00000000#32)) := by
  rw [carryWord_add (subWrap_lt a b) hb, subWrap_add ha hb, borrowWord]
  by_cases h : a < b
  · rw [if_pos h, if_pos h, if_neg (by omega), Nat.add_mod_right, Nat.mod_eq_of_lt ha]
    exact ⟨rfl, .inl ⟨rfl, rfl⟩⟩
  · rw [if_neg h, if_neg h, if_pos ha, Nat.mod_eq_of_lt ha]
    exact ⟨rfl, .inr ⟨rfl, rfl⟩⟩

theorem State.ofNat_val (s : State) (r : Reg) : BitVec.ofNat 256 (s.val r) = s.getX r := by
  rw [State.val, BitVec.ofNat_toNat, BitVec.setWidth_eq]

/-- Settles O25: the addition reads the difference in c and still b in rb. -/
theorem addUndoesSubtract : Obligations.AddUndoesSubtract := by
  intro s d c ra rb hne
  obtain ⟨hsum, hflags⟩ := add_subWrap (s.val_lt ra) (s.val_lt rb)
  have hc : ((s.setNat c (subWrap (s.val ra) (s.val rb))).setRes (borrowWord (s.val ra) (s.val rb))).complete.val c =
      subWrap (s.val ra) (s.val rb) := s.val_setNat_self c _ (subWrap_lt _ _)
  have hrb : ((s.setNat c (subWrap (s.val ra) (s.val rb))).setRes (borrowWord (s.val ra) (s.val rb))).complete.val rb =
      s.val rb := s.val_setNat_of_ne c rb _ hne.symm
  refine ⟨_, _, exec_mpiSubBorrow c ra rb s, exec_mpiAdd d c rb _, ?_⟩
  rw [hc, hrb, hsum]
  exact ⟨(State.getX_setNat_self _ d _).trans (s.ofNat_val ra), hflags⟩

/-- A command whose function is commutative answers the same with its sources exchanged. -/
theorem fieldBinary_comm {f : Nat → Nat → Nat} (hf : ∀ u v, f u v = f v u) (rd ra rb : Reg) (s : State) :
    fieldBinary rd ra rb f s = fieldBinary rd rb ra f s := by
  rw [fieldBinary, fieldBinary, Bool.and_comm, hf]

theorem fadd_assoc (a b c : Nat) : fadd (fadd a b) c = fadd a (fadd b c) := by
  refine eq_of_cast_eq (fadd_lt _ _) (fadd_lt _ _) ?_
  rw [cast_fadd, cast_fadd, cast_fadd, cast_fadd, add_assoc]

theorem fmul_assoc (a b c : Nat) : fmul (fmul a b) c = fmul a (fmul b c) := by
  refine eq_of_cast_eq (fmul_lt _ _) (fmul_lt _ _) ?_
  rw [cast_fmul, cast_fmul, cast_fmul, cast_fmul, mul_assoc]

theorem fadd_zero {a : Nat} (h : a < P) : fadd a 0 = a := Nat.mod_eq_of_lt h

theorem fmul_one {a : Nat} (h : a < P) : fmul a 1 = a := by rw [fmul, mul_one, Nat.mod_eq_of_lt h]

theorem fsub_self (a : Nat) : fsub a a = 0 := by
  refine eq_of_cast_eq (fsub_lt _ _) P_pos ?_
  rw [cast_fsub, sub_self, Nat.cast_zero]

/-- A field command with both sources below P leaves its function's value, when that is below P. -/
theorem exists_val_of_fieldBinary {rd ra rb : Reg} {f : Nat → Nat → Nat} {s : State} {n : Nat} (ha : s.val ra < P)
    (hb : s.val rb < P) (hf : f (s.val ra) (s.val rb) = n) (hn : n < P) :
    ∃ t, fieldBinary rd ra rb f s = .next t ∧ t.val rd = n :=
  ⟨_, fieldBinary_of_lt ha hb, hf ▸ s.val_setNat_self rd _ (hf ▸ hn.trans P_lt)⟩

/-- Settles O35: the laws of the residues, read on commands. -/
theorem fieldLaws : Obligations.FieldLaws := by
  refine ⟨fun rd ra rb s => ⟨?_, ?_⟩, fun a b c => ⟨fadd_assoc a b c, fmul_assoc a b c⟩,
    fun rd ra rb s ha => ⟨fun hb => ?_, fun hb => ?_, ?_⟩⟩
  · rw [exec_f25519Add, exec_f25519Add, fieldBinary_comm fadd_comm]
  · rw [exec_f25519Mult, exec_f25519Mult, fieldBinary_comm fmul_comm]
  · exact exists_val_of_fieldBinary ha (hb ▸ P_pos) (hb ▸ fadd_zero ha) ha
  · exact exists_val_of_fieldBinary ha (by rw [hb]; decide) (hb ▸ fmul_one ha) ha
  · exact exists_val_of_fieldBinary ha ha (fsub_self _) P_pos

/-- A nonzero field element times its inverse is 1, since P is prime (R146, R155). -/
theorem fmul_invChain {z : Nat} (hz : z < P) (h0 : z ≠ 0) : fmul z (invChain z) = 1 := by
  have : Fact (Nat.Prime P) := ⟨Laws.prime_P⟩
  have hne : (z : ZMod P) ≠ 0 := fun h => h0 (eq_of_cast_eq hz P_pos (h.trans Nat.cast_zero.symm))
  refine eq_of_cast_eq (fmul_lt _ _) (by decide) ?_
  rw [cast_fmul, cast_invChain, mul_pow_P_sub_two hne, Nat.cast_one]

theorem invChain_zero : invChain 0 = 0 := by rw [invChain_eq_fpow, fpow_zero (by decide)]

/-- Settles O36: the multiplication reads the inverse in c and still z in ra. -/
theorem multiplyByInverseIsOne : Obligations.MultiplyByInverseIsOne := by
  intro s d c ra hne hlt
  have hc : (s.setNat c (invChain (s.val ra))).complete.val c = invChain (s.val ra) :=
    s.val_setNat_self c _ ((invChain_lt _).trans P_lt)
  have hra : (s.setNat c (invChain (s.val ra))).complete.val ra = s.val ra := s.val_setNat_of_ne c ra _ hne.symm
  obtain ⟨s2, hs2, hval⟩ := exists_val_of_fieldBinary (rd := d) (f := fmul) (n := fmul (s.val ra) (invChain (s.val ra)))
    (hra.trans_lt hlt) (hc.trans_lt (invChain_lt _)) (by rw [hc, hra]) (fmul_lt _ _)
  refine ⟨_, s2, fieldUnary_of_lt hlt, hs2, fun h0 => hval.trans (fmul_invChain hlt h0), fun h0 => ⟨?_, ?_⟩⟩
  · rw [hc, h0, invChain_zero]
  · rw [hval, h0, fmul, Nat.zero_mul, Nat.zero_mod]

end Sys2Proof.Machine

/-! PROOF. The reference algorithms on digits (spec/40_mpi.md R102, R105, R111) and the reductions of the field layer
(spec/41_f25519.md R132, R137, R140, R143, R161) give the values of the meanings. -/

namespace Sys2Proof.Machine

open Sys2Proof.Config (P)

/-! ### Digit lists, the lowest digit first -/

theorem digitsOf_zero (v : Nat) : digitsOf 0 v = [] := rfl

/-- The first of n + 1 digits is the least significant one (R10). -/
theorem digitsOf_cons (n v : Nat) : digitsOf (n + 1) v = v % 2 ^ 32 :: digitsOf n (v / 2 ^ 32) := by
  have hdigit : ∀ j, v / 2 ^ (32 * (j + 1)) = v / 2 ^ 32 / 2 ^ (32 * j) := fun j => by
    rw [Nat.div_div_eq_div_mul, ← pow_add, Nat.mul_succ, Nat.add_comm]
  simp [digitsOf, List.range_succ_eq_map, Function.comp_def, hdigit]

@[simp] theorem length_digitsOf (n v : Nat) : (digitsOf n v).length = n := by simp [digitsOf]

theorem digitsBounded_digitsOf (n v : Nat) : digitsBounded (digitsOf n v) := by
  intro d hd
  obtain ⟨j, -, rfl⟩ := List.mem_map.1 hd
  exact Nat.mod_lt _ (by decide)

/-- A number modulo 2^(32(n+1)) is its low digit and the rest modulo 2^(32n). -/
theorem mod_digits_cons (n v : Nat) :
    v % 2 ^ (32 * (n + 1)) = v % 2 ^ 32 + 2 ^ 32 * (v / 2 ^ 32 % 2 ^ (32 * n)) := by
  rw [Nat.mul_succ, Nat.add_comm, pow_add, Nat.mod_mul]

theorem digitsValue_digitsOf (n v : Nat) : digitsValue (digitsOf n v) = v % 2 ^ (32 * n) := by
  induction n generalizing v with
  | zero => rw [digitsOf_zero, digitsValue, Nat.mul_zero, pow_zero, Nat.mod_one]
  | succ n ih => rw [digitsOf_cons, digitsValue, ih, mod_digits_cons]

/-- A list of digits is the digits of its value (R10). -/
theorem digitsOf_digitsValue {ds : List Nat} (h : digitsBounded ds) : digitsOf ds.length (digitsValue ds) = ds := by
  induction ds with
  | nil => rfl
  | cons d ds ih =>
    have hd : d < 2 ^ 32 := h d (by simp)
    have hlow : (d + 2 ^ 32 * digitsValue ds) % 2 ^ 32 = d := by omega
    have hhigh : (d + 2 ^ 32 * digitsValue ds) / 2 ^ 32 = digitsValue ds := by omega
    rw [List.length_cons, digitsValue, digitsOf_cons, hlow, hhigh, ih fun e he => h e (by simp [he])]

/-- n digits depend on the number modulo 2^(32n) only. -/
theorem digitsOf_mod (n v : Nat) : digitsOf n (v % 2 ^ (32 * n)) = digitsOf n v := by
  have h := digitsOf_digitsValue (digitsBounded_digitsOf n v)
  rwa [digitsValue_digitsOf, length_digitsOf] at h

/-- Eight digits hold an operand. -/
theorem operand_mod (v : Operand) : v.toNat % 2 ^ (32 * 8) = v.toNat := Nat.mod_eq_of_lt v.isLt

/-! ### Addition and subtraction (R102, R105) -/

/-- The addition loop with an incoming carry, by induction on the number of digits. -/
theorem addDigits_digitsOf (n a b c : Nat) : addDigits (digitsOf n a) (digitsOf n b) c =
    (digitsOf n (a + b + c), (a % 2 ^ (32 * n) + b % 2 ^ (32 * n) + c) / 2 ^ (32 * n)) := by
  induction n generalizing a b c with
  | zero => simp [digitsOf_zero, addDigits, Nat.mod_one]
  | succ n ih =>
    have hlow : (a % 2 ^ 32 + b % 2 ^ 32 + c) % 2 ^ 32 = (a + b + c) % 2 ^ 32 := by omega
    have hhigh : a / 2 ^ 32 + b / 2 ^ 32 + (a % 2 ^ 32 + b % 2 ^ 32 + c) / 2 ^ 32 = (a + b + c) / 2 ^ 32 := by omega
    have hcarry : (a % 2 ^ (32 * (n + 1)) + b % 2 ^ (32 * (n + 1)) + c) / 2 ^ 32 =
        a / 2 ^ 32 % 2 ^ (32 * n) + b / 2 ^ 32 % 2 ^ (32 * n) + (a % 2 ^ 32 + b % 2 ^ 32 + c) / 2 ^ 32 := by
      rw [mod_digits_cons, mod_digits_cons]
      omega
    have hpow : 2 ^ (32 * (n + 1)) = 2 ^ 32 * 2 ^ (32 * n) := by rw [← pow_add, Nat.mul_succ, Nat.add_comm]
    rw [digitsOf_cons, digitsOf_cons, digitsOf_cons, addDigits]
    rw [ih, hlow, hhigh, ← hcarry, Nat.div_div_eq_div_mul, ← hpow]

/-- Settles O45: the loop without an incoming carry, on operands. -/
theorem addDigitsGiveSum : Obligations.AddDigitsGiveSum := by
  intro a b
  rw [addDigits_digitsOf, operand_mod, operand_mod, Nat.add_zero, ← digitsOf_mod 8 (a.toNat + b.toNat)]

/-- The borrow out of the low digit (R105). -/
def lowBorrow (a b br : Nat) : Nat := if ((a % 2 ^ 32 : Nat) : Int) - (b % 2 ^ 32 : Nat) - br < 0 then 1 else 0

theorem lowBorrow_le_one (a b br : Nat) : lowBorrow a b br ≤ 1 := by
  unfold lowBorrow
  split <;> omega

/-- The low digit of a number congruent to the difference, and what is left for the other digits. -/
theorem low_difference {a b br v : Nat} (hbr : br ≤ 1) (hv : (2 ^ 32 : Int) ∣ (a : Int) - b - br - v) :
    ((((a % 2 ^ 32 : Nat) : Int) - (b % 2 ^ 32 : Nat) - br) % 2 ^ 32).toNat = v % 2 ^ 32 ∧
      (a : Int) - b - br - v =
        2 ^ 32 * (((a / 2 ^ 32 : Nat) : Int) - (b / 2 ^ 32 : Nat) - lowBorrow a b br - (v / 2 ^ 32 : Nat)) := by
  unfold lowBorrow
  constructor
  · omega
  · split <;> omega

/-- The subtraction loop with an incoming borrow leaves the digits of any number congruent to the difference, by induction
on the number of digits. -/
theorem subDigits_digitsOf (n a b br v : Nat) (hbr : br ≤ 1) (hv : (2 ^ (32 * n) : Int) ∣ (a : Int) - b - br - v) :
    subDigits (digitsOf n a) (digitsOf n b) br =
      (digitsOf n v, if a % 2 ^ (32 * n) < b % 2 ^ (32 * n) + br then 1 else 0) := by
  induction n generalizing a b br v with
  | zero =>
    have h : br = if 0 < br then 1 else 0 := by split <;> omega
    simp only [digitsOf_zero, subDigits, Nat.mul_zero, pow_zero, Nat.mod_one, Nat.zero_add]
    rw [← h]
  | succ n ih =>
    have hpow : (2 ^ (32 * (n + 1)) : Int) = 2 ^ 32 * 2 ^ (32 * n) := by rw [← pow_add, Nat.mul_succ, Nat.add_comm]
    rw [hpow] at hv
    obtain ⟨hlow, hrest⟩ := low_difference hbr ((Dvd.intro _ rfl).trans hv)
    have hv' := Int.dvd_of_mul_dvd_mul_left (by decide) (hrest ▸ hv)
    have hborrow : a % 2 ^ (32 * (n + 1)) < b % 2 ^ (32 * (n + 1)) + br ↔
        a / 2 ^ 32 % 2 ^ (32 * n) < b / 2 ^ 32 % 2 ^ (32 * n) + lowBorrow a b br := by
      rw [mod_digits_cons, mod_digits_cons, lowBorrow]
      split <;> omega
    rw [digitsOf_cons, digitsOf_cons, digitsOf_cons, subDigits, hlow, ← lowBorrow]
    simp only [ih _ _ _ _ (lowBorrow_le_one a b br) hv', hborrow]

/-- Settles O46: the loop without an incoming borrow, on operands. -/
theorem subDigitsGiveDifference : Obligations.SubDigitsGiveDifference := by
  intro a b
  have hdvd : (2 ^ (32 * 8) : Int) ∣
      (a.toNat : Int) - b.toNat - (0 : Nat) - ((((a.toNat : Int) - b.toNat) % 2 ^ 256).toNat : Nat) := by omega
  rw [subDigits_digitsOf 8 _ _ 0 _ (by decide) hdvd, operand_mod, operand_mod, Nat.add_zero]

/-! ### The schoolbook product (R111) -/

/-- An accumulator of a digit, a product of digits and a carry fits 64 bits, and its carry is a digit (R111). -/
theorem accumulator_le {w a m c : Nat} (hw : w < 2 ^ 32) (ha : a < 2 ^ 32) (hm : m < 2 ^ 32) (hc : c < 2 ^ 32) :
    w + a * m + c ≤ 2 ^ 64 - 1 ∧ (w + a * m + c) / 2 ^ 32 < 2 ^ 32 := by
  have hmul : a * m ≤ (2 ^ 32 - 1) * (2 ^ 32 - 1) := Nat.mul_le_mul (by omega) (by omega)
  omega

theorem digitsBounded_cons {d : Nat} {ds : List Nat} : digitsBounded (d :: ds) ↔ d < 2 ^ 32 ∧ digitsBounded ds := by
  simp [digitsBounded]

/-- One row of the schoolbook loop: over as many digits as a has, and one 0 above them, it adds a * m and the carry, and
leaves the digits further up alone. -/
theorem mulRow_spec {as : List Nat} {m : Nat} (has : digitsBounded as) (hm : m < 2 ^ 32) (hi : List Nat) :
    ∀ (lo : List Nat) (c : Nat), lo.length = as.length → digitsBounded lo → c < 2 ^ 32 →
      ∃ row, mulRow (lo ++ 0 :: hi) as m c = row ++ hi ∧ row.length = as.length + 1 ∧ digitsBounded row ∧
        digitsValue row = digitsValue lo + digitsValue as * m + c ∧ mulRowPeak (lo ++ 0 :: hi) as m c ≤ 2 ^ 64 - 1 := by
  induction as with
  | nil =>
    intro lo c hlen _ hc
    obtain rfl := List.length_eq_zero_iff.1 hlen
    exact ⟨[c], rfl, rfl, by simpa [digitsBounded] using hc, by simp [digitsValue], Nat.zero_le _⟩
  | cons a as ih =>
    intro lo c hlen hlo hc
    obtain ⟨w, lo, rfl⟩ := List.exists_cons_of_length_eq_add_one hlen
    obtain ⟨ha, has⟩ := digitsBounded_cons.1 has
    obtain ⟨hw, hlo⟩ := digitsBounded_cons.1 hlo
    obtain ⟨hpeak, hcarry⟩ := accumulator_le hw ha hm hc
    obtain ⟨row, hrow, hrlen, hrb, hrv, hrpeak⟩ := ih has lo _ (Nat.succ.inj hlen) hlo hcarry
    refine ⟨(w + a * m + c) % 2 ^ 32 :: row, ?_, by simp [hrlen],
      digitsBounded_cons.2 ⟨Nat.mod_lt _ (by decide), hrb⟩, ?_, max_le hpeak hrpeak⟩
    · rw [List.cons_append, mulRow, hrow, List.cons_append]
    · have hsplit := Nat.div_add_mod (w + a * m + c) (2 ^ 32)
      rw [digitsValue, digitsValue, digitsValue, hrv]
      linear_combination hsplit

/-- The rows of the schoolbook loop: with a 0 above the low digits for every digit of b still to come, they add a * b. -/
theorem mulRows_spec {as : List Nat} (has : digitsBounded as) {bs : List Nat} (hbs : digitsBounded bs) :
    ∀ lo : List Nat, lo.length = as.length → digitsBounded lo →
      (mulRows (lo ++ List.replicate bs.length 0) as bs).length = as.length + bs.length ∧
      digitsBounded (mulRows (lo ++ List.replicate bs.length 0) as bs) ∧
      digitsValue (mulRows (lo ++ List.replicate bs.length 0) as bs) =
        digitsValue lo + digitsValue as * digitsValue bs ∧
      mulPeak (lo ++ List.replicate bs.length 0) as bs ≤ 2 ^ 64 - 1 := by
  induction bs with
  | nil =>
    intro lo hlen hlo
    simp [mulRows, mulPeak, hlen, hlo, digitsValue]
  | cons m bs ih =>
    intro lo hlen hlo
    obtain ⟨hm, hbs⟩ := digitsBounded_cons.1 hbs
    obtain ⟨row, hrow, hrlen, hrb, hrv, hrpeak⟩ :=
      mulRow_spec has hm (List.replicate bs.length 0) lo 0 hlen hlo (by decide)
    obtain ⟨w, rest, rfl⟩ := List.exists_cons_of_length_eq_add_one hrlen
    obtain ⟨hw, hrest⟩ := digitsBounded_cons.1 hrb
    obtain ⟨hlen', hb', hv', hpeak'⟩ := ih hbs rest (Nat.succ.inj hrlen) hrest
    have hrows : mulRows (lo ++ List.replicate (m :: bs).length 0) as (m :: bs) =
        w :: mulRows (rest ++ List.replicate bs.length 0) as bs := by
      simp [mulRows, List.replicate_succ, hrow]
    have hpeak : mulPeak (lo ++ List.replicate (m :: bs).length 0) as (m :: bs) =
        max (mulRowPeak (lo ++ 0 :: List.replicate bs.length 0) as m 0)
          (mulPeak (rest ++ List.replicate bs.length 0) as bs) := by
      simp [mulPeak, List.replicate_succ, hrow]
    rw [hrows, hpeak]
    refine ⟨by simp [hlen', Nat.add_assoc], digitsBounded_cons.2 ⟨hw, hb'⟩, ?_, max_le hrpeak hpeak'⟩
    rw [digitsValue] at hrv
    rw [digitsValue, hv', digitsValue]
    linear_combination hrv

/-- Settles O48: sixteen bounded digits are the digits of their value. -/
theorem schoolbookGivesProduct : Obligations.SchoolbookGivesProduct := by
  intro a b
  have hwindow : digitsOf 8 0 ++ List.replicate (digitsOf 8 b.toNat).length 0 = List.replicate 16 0 := by
    rw [length_digitsOf]
    decide
  obtain ⟨hlen, hb, hv, hpeak⟩ := mulRows_spec (digitsBounded_digitsOf 8 a.toNat) (digitsBounded_digitsOf 8 b.toNat)
    (digitsOf 8 0) (by simp) (digitsBounded_digitsOf 8 0)
  rw [hwindow] at hlen hb hv hpeak
  rw [digitsValue_digitsOf, digitsValue_digitsOf, digitsValue_digitsOf, operand_mod, operand_mod, Nat.zero_mod,
    Nat.zero_add] at hv
  rw [length_digitsOf, length_digitsOf] at hlen
  have hdigits := digitsOf_digitsValue hb
  rw [hlen, hv] at hdigits
  exact ⟨hdigits.symm, hpeak⟩

/-! ### The final reduction (R132) and addition (R137, R140) -/

/-- With n subtractions the pass reduces every value below (n + 1) * P. -/
theorem subtractP_eq_mod (n v : Nat) (h : v < (n + 1) * P) : subtractP n v = v % P := by
  induction n generalizing v with
  | zero => rw [subtractP, Nat.mod_eq_of_lt (by omega)]
  | succ n ih =>
    rw [subtractP]
    split
    case isTrue hge =>
      rw [ih (v - P) (by rw [Nat.succ_mul] at h; omega), ← Nat.mod_eq_sub_mod hge]
    case isFalse hlt => rw [Nat.mod_eq_of_lt (not_le.1 hlt)]

/-- Settles O49: a 256-bit value is below 3 * P. -/
theorem finalReduceIsMod : Obligations.FinalReduceIsMod := by
  intro v hv
  have hreduce : ∀ n, 2 ≤ n → subtractP n v = v % P := fun n hn =>
    subtractP_eq_mod n v ((hv.trans lt_three_P).trans_le (Nat.mul_le_mul_right P (by omega)))
  exact ⟨hreduce 2 le_rfl, fun n hn => (hreduce n hn).trans (hreduce 2 le_rfl).symm⟩

/-- A value below 2 * P takes one subtraction, and the whole pass changes nothing more (R132). -/
theorem reduce_of_lt_two_P {v : Nat} (h : v < 2 * P) : v < 2 ^ 256 ∧ subtractP 1 v = v % P ∧ finalReduce v = v % P := by
  have hP := P_eq
  exact ⟨by omega, subtractP_eq_mod 1 v h, subtractP_eq_mod 2 v (by omega)⟩

/-- Settles O50: both sums are below 2 * P, so neither leaves 256 bits. -/
theorem addAndSubByReduction : Obligations.AddAndSubByReduction := by
  intro a b ha hb
  have hP := P_pos
  obtain ⟨hadd, hadd1, hadd2⟩ := reduce_of_lt_two_P (v := a + b) (by omega)
  obtain ⟨hsub, hsub1, hsub2⟩ := reduce_of_lt_two_P (v := a + (P - b)) (by omega)
  have hfsub : fsub a b = (a + (P - b)) % P := by rw [fsub, Nat.mod_eq_of_lt hb]
  refine ⟨⟨?_, by omega, hadd, hadd1⟩, ?_, by omega, by omega, by omega, by omega, hsub, hfsub ▸ hsub1⟩
  · rw [addByReduction, Nat.mod_eq_of_lt hadd, hadd2, fadd]
  · rw [subByNegation, Nat.mod_eq_of_lt hsub, hsub2, hfsub]

/-! ### Folding (R143, R161) -/

/-- A fold takes away a multiple of P, since 2^255 is P + 19. -/
theorem fold_add (p : Nat) : fold p + P * (p / 2 ^ 255) = p := by
  rw [fold, P_eq]
  omega

theorem fold_mod (p : Nat) : fold p % P = p % P := by
  conv_rhs => rw [← fold_add p, Nat.add_mul_mod_self_left]

/-- A fold of a value below 2^255 * n. -/
theorem fold_le {p n : Nat} (h : p < 2 ^ 255 * n) : fold p ≤ 2 ^ 255 - 1 + 19 * (n - 1) := by
  have hdiv : p / 2 ^ 255 < n := Nat.div_lt_of_lt_mul h
  unfold fold
  omega

/-- Settles O51: two folds of a product and one of a small product stay below 2 * P. -/
theorem multByFolding : Obligations.MultByFolding := by
  intro a b ha hb
  have hP := P_eq
  refine ⟨?_, fun k hk => ?_⟩
  · have hmul : a * b ≤ (P - 1) ^ 2 := by rw [pow_two]; exact Nat.mul_le_mul (by omega) (by omega)
    have hwide : a * b < 2 ^ 255 * 2 ^ 255 := Nat.mul_lt_mul'' (by omega) (by omega)
    have hfirst := fold_le hwide
    have hsecond := fold_le (p := fold (a * b)) (n := 20) (by omega)
    obtain ⟨-, hone, htwo⟩ := reduce_of_lt_two_P (v := fold (fold (a * b))) (by omega)
    rw [fold_mod, fold_mod] at hone htwo
    have hpow : 2 ^ 255 * 2 ^ 255 = 2 ^ 510 := (pow_add 2 255 255).symm.trans (congrArg (2 ^ ·) rfl)
    exact ⟨htwo, hmul, hpow ▸ hwide, by omega, hsecond, by omega, hone⟩
  · have hwide : a * k < 2 ^ 255 * 2 ^ 32 := Nat.mul_lt_mul'' (by omega) hk
    have hfold := fold_le hwide
    obtain ⟨-, -, htwo⟩ := reduce_of_lt_two_P (v := fold (a * k)) (by omega)
    rw [fold_mod] at htwo
    have hpow : 2 ^ 255 * 2 ^ 32 = 2 ^ 287 := (pow_add 2 255 32).symm.trans (congrArg (2 ^ ·) rfl)
    exact ⟨htwo, hpow ▸ hwide, by omega, by omega⟩

end Sys2Proof.Machine

/-! PROOF. The window's words (spec/20_memory.md R51, R52, R56, R59), runs of digit writes, messages written by a script
(spec/30_encoding.md R82), several instances (spec/60_exceptions.md R212) and several masters (spec/70_reset_and_hazards.md R241). -/

namespace Sys2Proof.Machine

/-! ### The words of the window -/

/-- A host read of STATUS shows ERR and SERR, and the reserved bits as 0 (R26). -/
theorem getLsbD_statusRead (status : Word) {k : Nat} (hk : k < 32) :
    (statusRead status).getLsbD k = (decide (k < 4 ∨ k = 8) && status.getLsbD k) := by
  have hmask : ∀ k < 32, (0x0000010F#32).getLsbD k = decide (k < 4 ∨ k = 8) := by decide
  rw [statusRead, BitVec.getLsbD_and, hmask k hk, Bool.and_comm]

@[simp] theorem memRead_status (s : State) : s.memRead statusOffset = statusRead s.status := by
  rw [State.memRead, windowReg_status, State.readReg]

/-- Settles O52: each word is the view of the register that stands there. -/
theorem windowReadsRegisters : Obligations.WindowReadsRegisters := by
  intro s
  have hstatus : s.memRead 0x204#12 = statusRead s.status := memRead_status s
  refine ⟨memRead_digitOffset s, memRead_cmd s, fun k hk => ?_, memRead_res s, memRead_id s,
    fun o ho => memRead_of_ge ho s⟩
  rw [hstatus, getLsbD_statusRead _ hk]

/-! ### Runs of digit writes -/

/-- The state after a host write of one digit, but for the event it takes off the list (R59). -/
def State.writeDigit (s : State) (e : Reg × DigitIx × Word) : State :=
  { s.setX e.1 (setDigit (s.getX e.1) e.2.1 e.2.2) with reply := none }

/-- The state after the digit writes of l, one after another. -/
def State.writeDigits (s : State) (l : List (Reg × DigitIx × Word)) : State := l.foldl State.writeDigit s

@[simp] theorem State.writeDigits_cons (s : State) (e : Reg × DigitIx × Word) (l : List (Reg × DigitIx × Word)) :
    s.writeDigits (e :: l) = (s.writeDigit e).writeDigits l := rfl

/-- Digit writes neither read nor change the list of waiting events. -/
theorem State.writeDigits_pending (l : List (Reg × DigitIx × Word)) (s : State) (evs : List HostEvent) :
    ({ s with pending := evs } : State).writeDigits l = { s.writeDigits l with pending := evs } := by
  induction l generalizing s with
  | nil => rfl
  | cons e l ih => exact ih (s.writeDigit e)

/-- Digit writes change no register but operand registers (R59). -/
theorem State.writeDigits_frame (l : List (Reg × DigitIx × Word)) (s : State) :
    (s.writeDigits l).res = s.res ∧ (s.writeDigits l).status = s.status ∧ (s.writeDigits l).cmdLast = s.cmdLast := by
  induction l generalizing s with
  | nil => exact ⟨rfl, rfl, rfl⟩
  | cons e l ih => exact ih (s.writeDigit e)

/-- A run over waiting digit writes performs them in order (R59, R62). -/
theorem run_digitWrites (l : List (Reg × DigitIx × Word)) {s : State} {rest : List HostEvent}
    (h : s.pending = digitWrites l ++ rest) : core.run l.length s = .next { s.writeDigits l with pending := rest } := by
  induction l generalizing s with
  | nil =>
    obtain rfl : s.pending = rest := h
    rfl
  | cons e l ih =>
    have hstep : step s = .next { s.writeDigit e with pending := digitWrites l ++ rest } := step_digitWrite h
    rw [List.length_cons, run_succ_of_next hstep, ih rfl, State.writeDigits_pending, State.writeDigits_cons]

/-- A run over all the waiting events when they are digit writes. -/
theorem run_digitWrites_all (l : List (Reg × DigitIx × Word)) (s : State) :
    core.run l.length { s with pending := digitWrites l } = .next { s.writeDigits l with pending := [] } := by
  rw [run_digitWrites l (List.append_nil _).symm, State.writeDigits_pending]

/-- A digit write changes one register (R59). -/
theorem State.getX_writeDigit_of_ne (s : State) {e : Reg × DigitIx × Word} {r : Reg} (h : r ≠ e.1) :
    (s.writeDigit e).getX r = s.getX r := s.getX_setX_of_ne e.1 r _ h

/-! ### A whole register by eight digit writes (R82) -/

/-- The digit writes of the digits js of v into one register. -/
def digitsOfOperand (n : Reg) (v : Operand) (js : List DigitIx) : List (Reg × DigitIx × Word) :=
  js.map fun j => (n, j, digit v j)

theorem scriptWr_eq_digitWrites (n : Reg) (v : Operand) :
    scriptWr n v = digitWrites (digitsOfOperand n v (List.finRange 8)) := by
  rw [scriptWr, digitWrites, digitsOfOperand, List.map_map]
  rfl

/-- A digit of the register after the writes: the new one when it was written, else the old one (R59). -/
theorem digit_writeDigits (n : Reg) (v : Operand) (js : List DigitIx) (s : State) (j : DigitIx) :
    digit ((s.writeDigits (digitsOfOperand n v js)).getX n) j = if j ∈ js then digit v j else digit (s.getX n) j := by
  induction js generalizing s with
  | nil => rfl
  | cons i js ih =>
    have hfirst : (s.writeDigit (n, i, digit v i)).getX n = setDigit (s.getX n) i (digit v i) := s.getX_setX_self n _
    rw [digitsOfOperand, List.map_cons, State.writeDigits_cons, ← digitsOfOperand, ih, hfirst]
    by_cases hj : j = i
    · subst hj
      simp [digit_setDigit_self]
    · simp [digit_setDigit_of_ne _ _ _ _ hj, hj]

/-- Written with all its eight digits, the register holds the operand (R20). -/
theorem getX_writeDigits_finRange (n : Reg) (v : Operand) (s : State) :
    (s.writeDigits (digitsOfOperand n v (List.finRange 8))).getX n = v :=
  eq_of_digit_eq fun j => by rw [digit_writeDigits, if_pos (List.mem_finRange j)]

theorem getX_writeDigits_of_ne {n r : Reg} (h : r ≠ n) (v : Operand) (js : List DigitIx) (s : State) :
    (s.writeDigits (digitsOfOperand n v js)).getX r = s.getX r := by
  induction js generalizing s with
  | nil => rfl
  | cons i js ih => exact (ih (s.writeDigit (n, i, digit v i))).trans (s.getX_writeDigit_of_ne h)

/-! ### Messages (R56) -/

theorem messageValue_lt (m : List Byte) : messageValue m < 256 ^ m.length := by
  induction m with
  | nil => decide
  | cons b m ih =>
    have hb : b.toNat < 256 := b.isLt
    rw [messageValue, List.length_cons, pow_succ]
    omega

/-- Messages of one length and value are equal. -/
theorem eq_of_messageValue_eq {m m' : List Byte} (hlen : m.length = m'.length) (h : messageValue m = messageValue m') :
    m = m' := by
  induction m generalizing m' with
  | nil => exact (List.length_eq_zero_iff.1 hlen.symm).symm
  | cons b m ih =>
    obtain ⟨b', m', rfl⟩ := List.exists_cons_of_length_eq_add_one hlen.symm
    have hb : b.toNat < 256 := b.isLt
    have hb' : b'.toNat < 256 := b'.isLt
    rw [messageValue, messageValue] at h
    rw [BitVec.eq_of_toNat_eq (x := b) (y := b') (by omega), ih (Nat.succ.inj hlen) (by omega)]

/-- The value of a message of 32 bytes, as an operand, has that message (R56). -/
theorem messageOf_messageValue {m : List Byte} (h : m.length = 32) :
    (BitVec.ofNat 256 (messageValue m)).toNat = messageValue m ∧ messageOf (BitVec.ofNat 256 (messageValue m)) = m := by
  have hlt : messageValue m < 2 ^ 256 := by
    have hm := messageValue_lt m
    rwa [h] at hm
  have hval : (BitVec.ofNat 256 (messageValue m)).toNat = messageValue m := by
    rw [BitVec.toNat_ofNat, Nat.mod_eq_of_lt hlt]
  refine ⟨hval, eq_of_messageValue_eq ?_ ((messageValue_messageOf _).trans hval)⟩
  rw [messageOf, List.length_map, List.length_range, h]

/-- Settles O58: the window shows the register's message, and the script writes each of the operand's eight digits. -/
theorem messagesRoundTrip : Obligations.MessagesRoundTrip := by
  refine ⟨fun s n => by rw [windowBytes_of_register, messageValue_messageOf, State.val], fun s n m rest hlen hp => ?_⟩
  obtain ⟨hval, hmsg⟩ := messageOf_messageValue hlen
  rw [scriptWrmsg, scriptWr_eq_digitWrites] at hp
  have hx := getX_writeDigits_finRange n (BitVec.ofNat 256 (messageValue m)) s
  obtain ⟨hres, hst, hcmd⟩ := s.writeDigits_frame (digitsOfOperand n (BitVec.ofNat 256 (messageValue m)) (List.finRange 8))
  refine ⟨_, run_digitWrites _ hp, ?_, ?_, fun r hr => getX_writeDigits_of_ne hr _ _ s, hres, hst, hcmd, rfl⟩
  · exact (congrArg BitVec.toNat hx).trans hval
  · exact (congrArg messageOf hx).trans hmsg

/-! ### Several masters (R241) -/

/-- Two writes to different registers, each of its register's first content. -/
theorem State.writeDigit_writeDigit_of_ne (s : State) {e f : Reg × DigitIx × Word} (h : f.1 ≠ e.1) :
    (s.writeDigit e).writeDigit f =
      { (s.setX e.1 (setDigit (s.getX e.1) e.2.1 e.2.2)).setX f.1
          (setDigit (s.getX f.1) f.2.1 f.2.2) with reply := none } := by
  rw [← s.getX_writeDigit_of_ne h]
  rfl

/-- Writes to two registers may be exchanged (R61). -/
theorem State.writeDigit_comm (s : State) {e f : Reg × DigitIx × Word} (h : e.1 ≠ f.1) :
    (s.writeDigit e).writeDigit f = (s.writeDigit f).writeDigit e := by
  rw [s.writeDigit_writeDigit_of_ne h.symm, s.writeDigit_writeDigit_of_ne h, State.setX_comm s h]

/-- A write to a register that none of l writes may be done before or after them. -/
theorem State.writeDigits_writeDigit_comm {l : List (Reg × DigitIx × Word)} {f : Reg × DigitIx × Word}
    (h : ∀ e ∈ l, e.1 ≠ f.1) (s : State) : (s.writeDigit f).writeDigits l = (s.writeDigits l).writeDigit f := by
  induction l generalizing s with
  | nil => rfl
  | cons e l ih =>
    rw [State.writeDigits_cons, State.writeDigits_cons, ← ih fun d hd => h d (by simp [hd]),
      State.writeDigit_comm s (h e (by simp))]

/-- An interleaving of two masters' writes leaves the state of one master's writes after the other's. -/
theorem writeDigits_of_interleaving {l₁ l₂ l : List (Reg × DigitIx × Word)} (h : Interleaving l₁ l₂ l)
    (hdisj : ∀ e₁ ∈ l₁, ∀ e₂ ∈ l₂, e₁.1 ≠ e₂.1) (s : State) : s.writeDigits l = (s.writeDigits l₁).writeDigits l₂ := by
  induction h generalizing s with
  | nil => rfl
  | left e _ ih => exact ih (fun e₁ h₁ => hdisj e₁ (by simp [h₁])) (s.writeDigit e)
  | @right as bs cs f _ ih =>
    rw [State.writeDigits_cons, ih (fun e₁ h₁ e₂ h₂ => hdisj e₁ h₁ e₂ (by simp [h₂])) (s.writeDigit f),
      State.writeDigits_writeDigit_comm fun e he => hdisj e he f (by simp)]
    rfl

theorem Interleaving.length_eq {α : Type} {as bs cs : List α} (h : Interleaving as bs cs) :
    cs.length = as.length + bs.length := by
  induction h with
  | nil => rfl
  | left _ _ ih | right _ _ ih => simp only [List.length_cons, ih]; omega

/-- An interleaving of two lists of images is the list of images of an interleaving. -/
theorem Interleaving.exists_of_map {α β : Type} {f : α → β} {as bs : List α} {cs : List β}
    (h : Interleaving (as.map f) (bs.map f) cs) : ∃ l, cs = l.map f ∧ Interleaving as bs l := by
  generalize has : as.map f = as', hbs : bs.map f = bs' at h
  induction h generalizing as bs with
  | nil =>
    obtain rfl := List.map_eq_nil_iff.1 has
    obtain rfl := List.map_eq_nil_iff.1 hbs
    exact ⟨[], rfl, .nil⟩
  | left a _ ih =>
    obtain ⟨e, as, rfl, rfl, htail⟩ := List.map_eq_cons_iff.1 has
    obtain ⟨l, rfl, hl⟩ := ih htail hbs
    exact ⟨e :: l, rfl, .left e hl⟩
  | right b _ ih =>
    obtain ⟨e, bs, rfl, rfl, htail⟩ := List.map_eq_cons_iff.1 hbs
    obtain ⟨l, rfl, hl⟩ := ih has htail
    exact ⟨e :: l, rfl, .right e hl⟩

/-- Settles O60: both runs perform digit writes, and writes to different registers commute. -/
theorem disjointMastersCommute : Obligations.DisjointMastersCommute := by
  intro s l₁ l₂ cs hdisj hcs
  obtain ⟨l, rfl, hl⟩ := hcs.exists_of_map
  have hrun := run_digitWrites_all l s
  have hrun' := run_digitWrites_all (l₁ ++ l₂) s
  rw [hl.length_eq] at hrun
  rw [List.length_append, digitWrites, List.map_append] at hrun'
  refine ⟨_, _, hrun, hrun', ?_⟩
  rw [writeDigits_of_interleaving hl hdisj, State.writeDigits, State.writeDigits, State.writeDigits, List.foldl_append]

/-! ### Several instances (R212) -/

/-- Settles O59: the instances before k are passed over, by induction on the list. -/
theorem instancesShareNothing : Obligations.InstancesShareNothing := by
  intro p
  induction p with
  | nil => intro q k h; simp [platformStep] at h
  | cons m p ih =>
    intro q k h
    cases k with
    | zero =>
      rw [platformStep] at h
      split at h
      case h_1 t ht =>
        cases h
        refine ⟨rfl, fun j hj => ?_, m, t, rfl, ht, rfl⟩
        cases j with
        | zero => exact absurd rfl hj
        | succ j => rfl
      all_goals cases h
    | succ k =>
      rw [platformStep, Option.map_eq_some_iff] at h
      obtain ⟨q, hq, rfl⟩ := h
      obtain ⟨hlen, hother, m', t, hm', ht, hk⟩ := ih q k hq
      refine ⟨by simp [hlen], fun j hj => ?_, m', t, hm', ht, hk⟩
      cases j with
      | zero => rfl
      | succ j => exact hother j fun h => hj (congrArg _ h)

end Sys2Proof.Machine
